-- ==== Sys2Proof/Word.lean ====
section
/-!
DEFINITION. The bit-vector types of the VLC framer (spec/00_scope.md R6, spec/10_state.md R20, R28, R35).
-/

namespace Sys2Proof

/-- One byte of buffer memory (R50). -/
abbrev Byte := BitVec 8

/-- A 32-bit register or beat field (R6 `SIZE_W`, `CACHE_W`; R80). -/
abbrev Word := BitVec 32

/-- A buffer-memory address, `ADDR_W` = 32 bits (R6, R50). -/
abbrev Address := BitVec 32

/-- The bit count `n = cmd[5:0]` (R81, R86); also the type of `bits_in_cache`, `BITS_W` = 6 bits (R6). -/
abbrev BitCount := BitVec 6

/-- The response value, `VALUE_W` = 35 bits (R6, R35). -/
abbrev Value := BitVec 35

/-- The 40-bit window `cache ‖ first_byte` (R28). -/
abbrev Window := BitVec 40

end Sys2Proof
end

