-- ==== Sys2Proof/Config.lean ====
section
/-!
DEFINITION. The implementation parameters of spec/00_scope.md R6, each at the value this hardware takes, and the one
free value: what a reader fetches where the host rewrote its buffer.
-/

namespace Sys2Proof.Config

/-- `MAX_READ_BITS` (R6): the largest bit count of one read, skip or peek. -/
def maxReadBits : Nat := 32

/-- `FIRST_BYTE_SENTINEL` (R6, R24). -/
def firstByteSentinel : Byte := 0xFF#8

/-- `CACHE_RESET` (R6, R25; the spec's decision D8). -/
def cacheReset : Word := 0x000000FF#32

/-- `UE_MAX_ZEROS` (R6): the longest accepted run of leading zeros in an Exp-Golomb code. -/
def ueMaxZeros : Nat := 32

/-- The width of a buffer-memory address, `ADDR_W` (R6). -/
def addrWidth : Nat := 32

/-- The emulation-prevention byte (R11, R122). -/
def epbByte : Byte := 0x03#8

/-- What a byte of buffer memory that the host never stored reads as. DESIGN CHOICE, unsafe (log entry 1): the spec
gives buffer memory no reset contents (R50, R51). -/
def unlistedByte : Byte := 0x00#8

/-- What command number `k` of a run fetches at address `a` of the live buffer when the host stored there after the
reader's INIT. A free value (log entry 5): R60 and spec/93_implementation_defined.md U1 give the fetch no meaning, and
R252 says that the change "can show up partly or twice". -/
opaque rewrittenByte (k : Nat) (a : Address) : Byte

end Sys2Proof.Config
end

