-- ==== Sys2Proof/Syntax.lean ====
section
/-!
DEFINITION. The command beat (spec/30_encoding.md R80) and the eighteen commands of VLCF command set version 1
(R2, R87), one constructor per row of spec/opcode_table.json.
-/

namespace Sys2Proof

/-- One command beat: three 32-bit fields presented together (R35, R80). -/
structure CommandBeat where
  /-- opcode and bit count (R81) -/
  cmd : Word
  /-- first operand: buffer base address or CEIL_LOG2 input (R84, R85) -/
  opa : Word
  /-- second operand: buffer length in bytes (R84) -/
  opb : Word
  deriving DecidableEq, Repr

/-- The commands (R87). A command of format Z or N carries nothing of `opa` and `opb`, which those formats ignore
(R82, R83); CEIL_LOG2 ignores `opb` (R85). -/
inductive Instr where
  /-- INIT base, size: format B (R120) -/
  | init (base : Address) (size : Word)
  /-- SKIP n: format N (R125) -/
  | skip (n : BitCount)
  /-- SKIP_TO_NEXT_BYTE: format Z (R127) -/
  | skipToNextByte
  /-- GET_BITS_UINT8 n: format N (R151) -/
  | getBitsUint8 (n : BitCount)
  /-- GET_BITS_UINT16 n: format N (R152) -/
  | getBitsUint16 (n : BitCount)
  /-- GET_BITS_UINT32 n: format N (R153) -/
  | getBitsUint32 (n : BitCount)
  /-- PEEK_BITS_UINT8 n: format N (R154) -/
  | peekBitsUint8 (n : BitCount)
  /-- PEEK_BITS_UINT16 n: format N (R155) -/
  | peekBitsUint16 (n : BitCount)
  /-- PEEK_BITS_UINT32 n: format N (R156) -/
  | peekBitsUint32 (n : BitCount)
  /-- GET_UE: format Z (R170) -/
  | getUe
  /-- GET_SE: format Z (R172) -/
  | getSe
  /-- IS_BYTE_ALIGNED: format Z (R191) -/
  | isByteAligned
  /-- GET_POSITION_BITS: format Z (R193) -/
  | getPositionBits
  /-- GET_REMAINING_BITS: format Z (R194) -/
  | getRemainingBits
  /-- GET_EPB_COUNT: format Z (R195) -/
  | getEpbCount
  /-- HAS_MORE_RBSP_DATA: format Z (R196) -/
  | hasMoreRbspData
  /-- SCAN_FOR_START_CODES base, size: format B (R198) -/
  | scanForStartCodes (base : Address) (size : Word)
  /-- CEIL_LOG2 v: format V (R110) -/
  | ceilLog2 (v : Word)
  deriving DecidableEq, Repr

end Sys2Proof
end

