-- ==== Sys2Proof/WellFormed.lean ====
section
/-!
DEFINITION. The static check on a command: the range of the bit count `n` (spec/30_encoding.md R86, R87, R90). It is
the only check a command needs beyond its encoding.
-/

namespace Sys2Proof

/-- The upper end of the legal range of `n` for a format-N command, column "n range" of R87; none for the other
formats, which have no `n`. -/
def Instr.countBound : Instr → Option Nat
  | .init _ _ => none
  | .skip _ => some 32
  | .skipToNextByte => none
  | .getBitsUint8 _ => some 8
  | .getBitsUint16 _ => some 16
  | .getBitsUint32 _ => some 32
  | .peekBitsUint8 _ => some 8
  | .peekBitsUint16 _ => some 16
  | .peekBitsUint32 _ => some 32
  | .getUe => none
  | .getSe => none
  | .isByteAligned => none
  | .getPositionBits => none
  | .getRemainingBits => none
  | .getEpbCount => none
  | .hasMoreRbspData => none
  | .scanForStartCodes _ _ => none
  | .ceilLog2 _ => none

/-- The bit count of a format-N command (R83); zero for the formats that demand zero there (R81). -/
def Instr.count : Instr → BitCount
  | .init _ _ => 0
  | .skip n => n
  | .skipToNextByte => 0
  | .getBitsUint8 n => n
  | .getBitsUint16 n => n
  | .getBitsUint32 n => n
  | .peekBitsUint8 n => n
  | .peekBitsUint16 n => n
  | .peekBitsUint32 n => n
  | .getUe => 0
  | .getSe => 0
  | .isByteAligned => 0
  | .getPositionBits => 0
  | .getRemainingBits => 0
  | .getEpbCount => 0
  | .hasMoreRbspData => 0
  | .scanForStartCodes _ _ => 0
  | .ceilLog2 _ => 0

/-- A command is well formed when its bit count, if its format has one, lies in `1..N` (R86). -/
def Instr.wf (i : Instr) : Bool :=
  match i.countBound with
  | none => true
  | some bound => 1 ≤ i.count.toNat && i.count.toNat ≤ bound

end Sys2Proof
end

