-- ==== Sys2Proof/Decode.lean ====
section
/-!
DEFINITION. Decoding a command beat and encoding a command (spec/30_encoding.md R80 to R90). The decoder is the table
of R87 with its match and mask columns; the encoder is written from the opcode column and the formats of R81 to R85.
-/

namespace Sys2Proof

/-! ### Fields of `cmd` -/

/-- `cmd[31:24]`, the opcode (R81). -/
def opcodeField (cmd : Word) : BitVec 8 := cmd.extractLsb' 24 8

/-- `cmd[5:0]`, the bit count of format N (R81, R83, R86): unsigned, not scaled, not biased. -/
def countField (cmd : Word) : BitCount := cmd.extractLsb' 0 6

/-! ### The opcode map, R87 -/

/-- The four formats (R82 to R85). -/
inductive Format where
  /-- no operand (R82) -/
  | z
  /-- bit count (R83) -/
  | n
  /-- buffer (R84) -/
  | b
  /-- value (R85) -/
  | v
  deriving DecidableEq, Repr

/-- The eighteen mnemonics (column "mnemonic" of R87). -/
inductive Mnemonic where
  /-- INIT -/
  | init
  /-- SKIP -/
  | skip
  /-- SKIP_TO_NEXT_BYTE -/
  | skipToNextByte
  /-- GET_BITS_UINT8 -/
  | getBitsUint8
  /-- GET_BITS_UINT16 -/
  | getBitsUint16
  /-- GET_BITS_UINT32 -/
  | getBitsUint32
  /-- PEEK_BITS_UINT8 -/
  | peekBitsUint8
  /-- PEEK_BITS_UINT16 -/
  | peekBitsUint16
  /-- PEEK_BITS_UINT32 -/
  | peekBitsUint32
  /-- GET_UE -/
  | getUe
  /-- GET_SE -/
  | getSe
  /-- IS_BYTE_ALIGNED -/
  | isByteAligned
  /-- GET_POSITION_BITS -/
  | getPositionBits
  /-- GET_REMAINING_BITS -/
  | getRemainingBits
  /-- GET_EPB_COUNT -/
  | getEpbCount
  /-- HAS_MORE_RBSP_DATA -/
  | hasMoreRbspData
  /-- SCAN_FOR_START_CODES -/
  | scanForStartCodes
  /-- CEIL_LOG2 -/
  | ceilLog2
  deriving DecidableEq, Repr

/-- One row of R87. -/
structure OpcodeRow where
  /-- column "mnemonic" -/
  mnemonic : Mnemonic
  /-- column "format" -/
  format : Format
  /-- column "match" -/
  pattern : Word
  /-- column "mask" -/
  mask : Word
  deriving DecidableEq, Repr

/-- `cmd & mask == match` (R87). -/
def OpcodeRow.selects (row : OpcodeRow) (cmd : Word) : Bool := cmd &&& row.mask == row.pattern

/-- The core-reader rows of R87. -/
def coreRows : List OpcodeRow :=
  [⟨.init, .b, 0x01000000#32, 0xFFFFFFFF#32⟩,
   ⟨.skip, .n, 0x02000000#32, 0xFFFFFFC0#32⟩,
   ⟨.skipToNextByte, .z, 0x03000000#32, 0xFFFFFFFF#32⟩]

/-- The fixed-width rows of R87. -/
def fixedWidthRows : List OpcodeRow :=
  [⟨.getBitsUint8, .n, 0x08000000#32, 0xFFFFFFC0#32⟩,
   ⟨.getBitsUint16, .n, 0x09000000#32, 0xFFFFFFC0#32⟩,
   ⟨.getBitsUint32, .n, 0x0A000000#32, 0xFFFFFFC0#32⟩,
   ⟨.peekBitsUint8, .n, 0x0C000000#32, 0xFFFFFFC0#32⟩,
   ⟨.peekBitsUint16, .n, 0x0D000000#32, 0xFFFFFFC0#32⟩,
   ⟨.peekBitsUint32, .n, 0x0E000000#32, 0xFFFFFFC0#32⟩]

/-- The Exp-Golomb and query rows of R87. -/
def streamRows : List OpcodeRow :=
  [⟨.getUe, .z, 0x10000000#32, 0xFFFFFFFF#32⟩,
   ⟨.getSe, .z, 0x11000000#32, 0xFFFFFFFF#32⟩,
   ⟨.isByteAligned, .z, 0x20000000#32, 0xFFFFFFFF#32⟩,
   ⟨.getPositionBits, .z, 0x21000000#32, 0xFFFFFFFF#32⟩,
   ⟨.getRemainingBits, .z, 0x22000000#32, 0xFFFFFFFF#32⟩,
   ⟨.getEpbCount, .z, 0x23000000#32, 0xFFFFFFFF#32⟩,
   ⟨.hasMoreRbspData, .z, 0x24000000#32, 0xFFFFFFFF#32⟩]

/-- The stateless rows of R87. -/
def statelessRows : List OpcodeRow :=
  [⟨.scanForStartCodes, .b, 0x30000000#32, 0xFFFFFFFF#32⟩,
   ⟨.ceilLog2, .v, 0x31000000#32, 0xFFFFFFFF#32⟩]

/-- The eighteen rows of R87. -/
def opcodeTable : List OpcodeRow := coreRows ++ fixedWidthRows ++ streamRows ++ statelessRows

/-! ### Decoding -/

/-- Why a beat selects no row of R87. -/
inductive DecodeError where
  /-- The opcode is not in R87 (R88). Answered ERR_ILLEGAL by the step; safe, it is the spec's own answer. -/
  | reservedOpcode (opcode : BitVec 8)
  /-- The opcode is in R87 and a must-be-zero bit of its format is set (R89). Answered ERR_ILLEGAL; safe. -/
  | reservedBits (opcode : BitVec 8)
  deriving DecidableEq, Repr

/-- The row of R87 that a `cmd` word selects. -/
def selectRow (cmd : Word) : Except DecodeError OpcodeRow :=
  match opcodeTable.find? (fun row => row.selects cmd) with
  | some row => .ok row
  | none =>
    if opcodeTable.any (fun row => opcodeField row.pattern == opcodeField cmd) then
      .error (.reservedBits (opcodeField cmd))
    else
      .error (.reservedOpcode (opcodeField cmd))

/-- The command a mnemonic spells, with its operand fields taken from the beat (R82 to R86). -/
def Mnemonic.build : Mnemonic → CommandBeat → Instr
  | .init, beat => .init beat.opa beat.opb
  | .skip, beat => .skip (countField beat.cmd)
  | .skipToNextByte, _ => .skipToNextByte
  | .getBitsUint8, beat => .getBitsUint8 (countField beat.cmd)
  | .getBitsUint16, beat => .getBitsUint16 (countField beat.cmd)
  | .getBitsUint32, beat => .getBitsUint32 (countField beat.cmd)
  | .peekBitsUint8, beat => .peekBitsUint8 (countField beat.cmd)
  | .peekBitsUint16, beat => .peekBitsUint16 (countField beat.cmd)
  | .peekBitsUint32, beat => .peekBitsUint32 (countField beat.cmd)
  | .getUe, _ => .getUe
  | .getSe, _ => .getSe
  | .isByteAligned, _ => .isByteAligned
  | .getPositionBits, _ => .getPositionBits
  | .getRemainingBits, _ => .getRemainingBits
  | .getEpbCount, _ => .getEpbCount
  | .hasMoreRbspData, _ => .hasMoreRbspData
  | .scanForStartCodes, beat => .scanForStartCodes beat.opa beat.opb
  | .ceilLog2, beat => .ceilLog2 beat.opa

/-- Decoding a beat: the row it selects, with the operands of the row's format. The range check on `n` follows the
table (R87: "followed by the range check on `n` of rule R86") and stands in WellFormed and in each format-N meaning,
which answers ERR_ILLEGAL outside the range (R90; log entry 2). -/
def decode (beat : CommandBeat) : Except DecodeError Instr :=
  match selectRow beat.cmd with
  | .ok row => .ok (row.mnemonic.build beat)
  | .error e => .error e

/-- A beat spells a command: it selects a row and its bit count is in range. Its negation is the illegal beat of R88,
R89, R90 (R223). -/
def spellsCommand (beat : CommandBeat) : Bool :=
  match decode beat with
  | .ok i => i.wf
  | .error _ => false

/-! ### Encoding -/

/-- Column "opcode" of R87. -/
def opcodeOf : Instr → BitVec 8
  | .init _ _ => 0x01#8
  | .skip _ => 0x02#8
  | .skipToNextByte => 0x03#8
  | .getBitsUint8 _ => 0x08#8
  | .getBitsUint16 _ => 0x09#8
  | .getBitsUint32 _ => 0x0A#8
  | .peekBitsUint8 _ => 0x0C#8
  | .peekBitsUint16 _ => 0x0D#8
  | .peekBitsUint32 _ => 0x0E#8
  | .getUe => 0x10#8
  | .getSe => 0x11#8
  | .isByteAligned => 0x20#8
  | .getPositionBits => 0x21#8
  | .getRemainingBits => 0x22#8
  | .getEpbCount => 0x23#8
  | .hasMoreRbspData => 0x24#8
  | .scanForStartCodes _ _ => 0x30#8
  | .ceilLog2 _ => 0x31#8

/-- The three fields of `cmd` joined: opcode, the eighteen reserved zero bits, `n` (R81). -/
def cmdWord (opcode : BitVec 8) (n : BitCount) : Word := opcode ++ (0#18) ++ n

/-- What a command puts in `opa`: the base address (R84), the CEIL_LOG2 input (R85), or zero where the format ignores
the field (R97: ignored operand fields are written as zero). -/
def operandA : Instr → Word
  | .init base _ => base
  | .scanForStartCodes base _ => base
  | .ceilLog2 v => v
  | .skip _ => 0
  | .skipToNextByte => 0
  | .getBitsUint8 _ => 0
  | .getBitsUint16 _ => 0
  | .getBitsUint32 _ => 0
  | .peekBitsUint8 _ => 0
  | .peekBitsUint16 _ => 0
  | .peekBitsUint32 _ => 0
  | .getUe => 0
  | .getSe => 0
  | .isByteAligned => 0
  | .getPositionBits => 0
  | .getRemainingBits => 0
  | .getEpbCount => 0
  | .hasMoreRbspData => 0

/-- What a command puts in `opb`: the buffer length (R84), or zero where the format ignores the field. -/
def operandB : Instr → Word
  | .init _ size => size
  | .scanForStartCodes _ size => size
  | .ceilLog2 _ => 0
  | .skip _ => 0
  | .skipToNextByte => 0
  | .getBitsUint8 _ => 0
  | .getBitsUint16 _ => 0
  | .getBitsUint32 _ => 0
  | .peekBitsUint8 _ => 0
  | .peekBitsUint16 _ => 0
  | .peekBitsUint32 _ => 0
  | .getUe => 0
  | .getSe => 0
  | .isByteAligned => 0
  | .getPositionBits => 0
  | .getRemainingBits => 0
  | .getEpbCount => 0
  | .hasMoreRbspData => 0

/-- The beat that spells a command (R81 to R85). -/
def encode (i : Instr) : CommandBeat :=
  { cmd := cmdWord (opcodeOf i) i.count, opa := operandA i, opb := operandB i }

/-! ### Words numbered as spec/opcode_table.json numbers them -/

/-- The beat whose bits are `w`: bits 31..0 are `cmd`, the operand words `opa` and `opb` count on from it; every bit at
or above `nbits` is zero. -/
def beatOfWord (nbits w : Nat) : CommandBeat :=
  let bits := w % 2 ^ nbits
  { cmd := BitVec.ofNat 32 bits, opa := BitVec.ofNat 32 (bits / 2 ^ 32), opb := BitVec.ofNat 32 (bits / 2 ^ 64) }

/-- The command the decoder reads from a word numbered as the opcode table numbers it. -/
def decodeTableWord (nbits w : Nat) : Option Instr :=
  match decode (beatOfWord nbits w) with
  | .ok i => some i
  | .error _ => none

end Sys2Proof
end

