-- ==== Sys2Proof/Machine/State.lean ====
section
/-!
DEFINITION. The state of the machine: the seven registers of the reader context (spec/10_state.md R20), the host's
buffer memory (spec/20_memory.md R50), the beats the host has still to issue and the responses it has received
(spec/00_scope.md R7 to R9, spec/10_state.md R35); and the state after reset (R40).
-/

namespace Sys2Proof.Machine

/-- The reader context: the seven registers of R20. `t <- copy(S)` of R10 is a value of this type. -/
structure Context where
  /-- `data_base`: the address of byte 0 of the buffer (R21) -/
  dataBase : Address
  /-- `size`: the buffer's length in bytes (R22) -/
  size : Word
  /-- `byte_pos`: the index of the next raw byte to be consumed (R23) -/
  bytePos : Word
  /-- `first_byte`: the last pushed byte, or the sentinel (R24) -/
  firstByte : Byte
  /-- `cache`: the bit accumulator (R25) -/
  cache : Word
  /-- `bits_in_cache`: the count of valid unread bits in the window (R26) -/
  bitsInCache : BitCount
  /-- `epb_count`: the count of emulation-prevention bytes dropped (R27) -/
  epbCount : Word
  deriving DecidableEq, Repr

/-- The status of a response (R93). Codes 5 to 15 are never produced, so they have no constructor. -/
inductive Status where
  /-- code 0: the command did what its rule says -/
  | ok
  /-- code 1, ERR_INSUFFICIENT_DATA (R221) -/
  | insufficientData
  /-- code 2, ERR_CODE_OVERFLOW (R222) -/
  | codeOverflow
  /-- code 3, ERR_ILLEGAL (R223) -/
  | illegal
  /-- code 4, NOT_FOUND: the scan found no start code; not a failure -/
  | notFound
  deriving DecidableEq, Repr

/-- One response beat (R35, R92). -/
structure Response where
  /-- `status[3:0]`; its number is `Status.code` -/
  status : Status
  /-- `value[34:0]` (R94) -/
  value : Value
  deriving DecidableEq, Repr

/-- Buffer memory as the bytes the host stored, by address, in the canonical form of `Memory.wf`; an address not listed
reads as `Config.unlistedByte`. -/
abbrev Memory := List Host.Cell

/-- The state. `mem`, `commands` and `responses` are the host's (R7, R9, R50) and `rewritten` is the model's own record
of a host that broke R60; only `ctx` is the block's own. -/
structure State where
  /-- the seven registers (R20) -/
  ctx : Context
  /-- buffer memory (R50) -/
  mem : Memory
  /-- the addresses of the live buffer that the host stored to since the last INIT or reset (R59, R60, R252): none
  while the host keeps R60. The model's own field, log entry 5 -/
  rewritten : List Address
  /-- the beats the host will issue, in issue order; the first is the one on the command port (R7, R35, R253) -/
  commands : List CommandBeat
  /-- the response beats produced so far, in issue order: the observation of the run (R9, R92) -/
  responses : List Response
  deriving DecidableEq, Repr

/-- Reasons a step stops with a fault. There is none: memory reads never fault (R51) and "there are no
fatal/unrecoverable conditions inside this core" (R231); every failure is a response, after which the block goes on. -/
inductive Fault where
  deriving DecidableEq, Repr

/-- Reasons for a refusal. No command is refused by its meaning. -/
inductive Refusal where
  /-- Raised by an arm of exec whose command has no meaning yet; no arm raises it. Safe. -/
  | notModelled (mnemonic : String)
  deriving DecidableEq, Repr

/-- The registers after hardware reset (R40, R250). -/
def Context.reset : Context :=
  { dataBase := 0x00000000#32, size := 0#32, bytePos := 0#32, firstByte := Config.firstByteSentinel,
    cache := Config.cacheReset, bitsInCache := 0#6, epbCount := 0#32 }

/-- The machine right after reset: the registers of R40, no byte of buffer memory stored by the host, no command issued
and no response produced (R250: "No command is in flight after reset and no response is pending"). -/
def State.reset : State :=
  { ctx := Context.reset, mem := [], rewritten := [], commands := [], responses := [] }

end Sys2Proof.Machine
end

