-- ==== Sys2Proof/Machine/Flags.lean ====
section
/-!
DEFINITION. The block has no condition flags (spec/10_state.md R34): a command's outcome is its response alone. Here
are the parts of the response: the number of a status (spec/30_encoding.md R93) and the ways a result is placed in
the 35-bit value (R94).
-/

namespace Sys2Proof.Machine

/-- The `status[3:0]` code (R93). -/
def Status.code : Status → BitVec 4
  | .ok => 0#4
  | .insufficientData => 1#4
  | .codeOverflow => 2#4
  | .illegal => 3#4
  | .notFound => 4#4

/-- A failure: a status that is neither OK nor NOT_FOUND (R11, R220). -/
def Status.isFailure : Status → Bool
  | .ok => false
  | .insufficientData => true
  | .codeOverflow => true
  | .illegal => true
  | .notFound => false

/-- A Boolean result: 1 for true and 0 for false in `value[0]` (R94). -/
def boolValue (b : Bool) : Value := if b then 1#35 else 0#35

/-- An unsigned result placed in `value[34:0]`, zeros above (R94). -/
def natValue (v : Nat) : Value := BitVec.ofNat 35 v

/-- `zext_35` of a 32-bit result: zeros in `value[34:32]`, never sign-extended (R94). -/
def wordValue (w : Word) : Value := w.setWidth 35

/-- An exact integer result in all 35 bits (R94, R193, R194). -/
def intValue (v : Int) : Value := BitVec.ofInt 35 v

end Sys2Proof.Machine
end

