-- ==== Sys2Proof/Machine/Operands.lean ====
section
/-!
DEFINITION. The operand forms of the commands: the bit count's legal range (spec/30_encoding.md R86), the address of a
buffer byte (spec/20_memory.md R52) and the live buffer (R59, R60).
-/

namespace Sys2Proof.Machine

/-- `1 <= n <= bound`, the legal range of the bit count of a format-N command (R86). -/
def countInRange (bound : Nat) (n : BitCount) : Bool := 1 ≤ n.toNat && n.toNat ≤ bound

/-- The address of byte `j` of a buffer that starts at `base`: `trunc_32(base + j)` (R52). -/
def byteAddress (base : Address) (j : Nat) : Address := base + BitVec.ofNat 32 j

/-- An address lies in the buffer the reader is a view of: it is byte `j` of it for some `j < size` (R52, R59). -/
def Context.inBuffer (c : Context) (a : Address) : Bool := (a - c.dataBase).toNat < c.size.toNat

end Sys2Proof.Machine
end

