-- ==== Sys2Proof/Machine/Ops.lean ====
section
/-!
DEFINITION. The shared operations: buffer memory (spec/20_memory.md), the response and failure of a command
(spec/30_encoding.md R92, spec/60_exceptions.md R225), the Refill primitive with the emulation-prevention stripper
(spec/41_core.md R121 to R123), bit extraction (spec/42_fixed_width.md R150), and what the host does to the machine.
-/

namespace Sys2Proof.Machine

/-! ### Buffer memory -/

/-- The byte stored at address `a`, or `Config.unlistedByte` where the host stored none. -/
def Memory.lookup (a : Nat) : Memory → Byte
  | [] => Config.unlistedByte
  | (k, b) :: rest => if k = a then b else Memory.lookup a rest

/-- `MemRead(addr, 1)` (R51): total, no fault, no side effect. -/
def Memory.read (m : Memory) (a : Address) : Byte := Memory.lookup a.toNat m

/-- The cells with byte `b` at address `a`. The byte an unlisted address reads as is never listed. -/
def Memory.store (a : Nat) (b : Byte) : Memory → Memory
  | [] => if b = Config.unlistedByte then [] else [(a, b)]
  | (k, v) :: rest =>
    if a < k then
      if b = Config.unlistedByte then (k, v) :: rest else (a, b) :: (k, v) :: rest
    else if a = k then
      if b = Config.unlistedByte then rest else (a, b) :: rest
    else (k, v) :: Memory.store a b rest

/-- The cells lie at strictly rising addresses from `low` on, inside the 32-bit address space, and none holds the byte
an unlisted address reads as. -/
def Memory.wfFrom (low : Nat) : Memory → Bool
  | [] => true
  | (k, b) :: rest =>
    decide (low ≤ k) && decide (k < 2 ^ Config.addrWidth) && decide (b ≠ Config.unlistedByte) && Memory.wfFrom (k + 1) rest

/-- The canonical form of memory: equal memories are equal lists. -/
def Memory.wf (m : Memory) : Bool := Memory.wfFrom 0 m

/-- The memory after a list of bytes has been stored from an address on, wrapping at the top (R52). -/
def Memory.storeBytes (m : Memory) (base : Address) : List Byte → Memory
  | [] => m
  | b :: rest => Memory.storeBytes (Memory.store base.toNat b m) (base + 1#32) rest

/-- What a reading command fetches from (R57, R59): buffer memory, with a free byte at each address of the live buffer
that the host rewrote since INIT (log entry 5). It is `s.mem` while the host keeps R60. -/
def State.readerMem (s : State) : Memory :=
  s.rewritten.foldr (fun a m => Memory.store a.toNat (Config.rewrittenByte s.responses.length a) m) s.mem

/-! ### The end of a command -/

/-- `respond(status, value)` (R10, R92): the command ends with this one response beat. -/
def State.respond (s : State) (st : Status) (v : Value) : State :=
  { s with responses := s.responses ++ [⟨st, v⟩] }

/-- `fail(status)` (R10, R225): the response with `value = 0`, and no register written. This is the block's whole
"exception entry"; there is no return (R226). -/
def State.fail (s : State) (st : Status) : State := s.respond st 0#35

/-- `S <- t` and then `respond(OK, v)` (R124): a copy is committed only with an OK response. -/
def State.commit (s : State) (t : Context) (v : Value) : State := ({ s with ctx := t }).respond .ok v

/-! ### Refill and the emulation-prevention stripper -/

/-- The end test and the fetch of R121: none when `byte_pos >= size`, else the byte at `data_base + byte_pos` and the
copy with `byte_pos` advanced. -/
def fetchByte (mem : Memory) (t : Context) : Option (Byte × Context) :=
  if t.size.toNat ≤ t.bytePos.toNat then none
  else some (mem.read (byteAddress t.dataBase t.bytePos.toNat), { t with bytePos := t.bytePos + 1#32 })

/-- The emulation-prevention test (R122): the byte is `03`, and `first_byte` and `cache[7:0]` are both zero. -/
def isEpb (t : Context) (b : Byte) : Bool :=
  b == Config.epbByte && t.firstByte == 0x00#8 && t.cache.extractLsb' 0 8 == 0x00#8

/-- The push (R121): the old `first_byte` goes into the low end of `cache`, the new byte into `first_byte`, and eight
more bits are valid. -/
def pushByte (t : Context) (b : Byte) : Context :=
  { t with cache := (t.cache <<< 8) ||| t.firstByte.setWidth 32, firstByte := b, bitsInCache := t.bitsInCache + 8#6 }

/-- One iteration of Refill's outer loop (R121): fetch a byte; if it is an emulation-prevention byte, drop and count it
and push the byte after it unchecked (R123); else push it. None is `exhausted`. -/
def pushNext (mem : Memory) (t : Context) : Option Context :=
  match fetchByte mem t with
  | none => none
  | some (b, t1) =>
    if isEpb t b then
      match fetchByte mem { t1 with epbCount := t1.epbCount + 1#32 } with
      | none => none
      | some (b2, t2) => some (pushByte t2 b2)
    else some (pushByte t1 b)

/-- `while t.bits_in_cache < n` with at most `fuel` iterations. -/
def refillLoop (mem : Memory) (n : Nat) : Nat → Context → Option Context
  | 0, t => some t
  | fuel + 1, t =>
    if t.bitsInCache.toNat < n then
      match pushNext mem t with
      | none => none
      | some t' => refillLoop mem n fuel t'
    else some t

/-- Refill(`t`, `n`) (R121), `1 <= n <= 32`: none is `exhausted`. Every iteration makes eight more bits valid, so `n`
iterations are always enough (`refill_unfold` in Laws/Refill.lean proves the loop of R121 of it). -/
def refill (mem : Memory) (t : Context) (n : Nat) : Option Context := refillLoop mem n n t

/-- The window `cache ‖ first_byte` (R28). -/
def Context.window (t : Context) : Window := t.cache ++ t.firstByte

/-- GetBits(`t`, `n`) (R150): the top `n` valid bits of the window and the copy with them consumed; none is
`exhausted`. -/
def getBits (mem : Memory) (t : Context) (n : Nat) : Option (Nat × Context) :=
  match refill mem t n with
  | none => none
  | some t' =>
    let shift := t'.bitsInCache.toNat - n
    some ((t'.window.toNat >>> shift) &&& (2 ^ n - 1), { t' with bitsInCache := BitVec.ofNat 6 shift })

/-! ### The cursor -/

/-- `8*byte_pos - bits_in_cache`, exact (R193). -/
def Context.positionBits (c : Context) : Int := 8 * (c.bytePos.toNat : Int) - (c.bitsInCache.toNat : Int)

/-- `8*(size - byte_pos) + bits_in_cache`, exact (R194): the budget of R126. -/
def Context.remainingBits (c : Context) : Int :=
  8 * ((c.size.toNat : Int) - (c.bytePos.toNat : Int)) + (c.bitsInCache.toNat : Int)

/-! ### The shared bodies of the format-N commands -/

/-- The body of GET_BITS_UINT`N` (R151 to R153). -/
def getBitsOp (bound : Nat) (n : BitCount) (s : State) : Host.Outcome State Fault Refusal :=
  if countInRange bound n then
    match getBits s.readerMem s.ctx n.toNat with
    | none => .next (s.fail .insufficientData)
    | some (v, t) => .next (s.commit t (natValue v))
  else .next (s.fail .illegal)

/-- The body of PEEK_BITS_UINT`N` (R154 to R156): the copy is dropped. -/
def peekBitsOp (bound : Nat) (n : BitCount) (s : State) : Host.Outcome State Fault Refusal :=
  if countInRange bound n then
    match getBits s.readerMem s.ctx n.toNat with
    | none => .next (s.fail .insufficientData)
    | some (v, _) => .next (s.respond .ok (natValue v))
  else .next (s.fail .illegal)

/-! ### What the host and the platform do -/

/-- A new use of the reader begins (R59, R252): nothing of its buffer has been rewritten. -/
def State.newUse (s : State) : State := { s with rewritten := [] }

/-- Hardware reset at any time between commands: the seven registers take their reset values (R40, R250). Buffer
memory, the beats not yet issued and the responses already taken are the host's and stay. -/
def State.hardwareReset (s : State) : State := { s.newUse with ctx := Context.reset }

/-- The host puts one more beat behind those it will issue (R9, R253). -/
def State.issue (s : State) (beat : CommandBeat) : State := { s with commands := s.commands ++ [beat] }

/-- The host stores a byte between two commands (R61, R251 step 1). A store into the live reader's buffer is a store
like any other; the address is recorded, since R60 gives the reading commands up to the next INIT no meaning there. -/
def State.hostStore (s : State) (a : Address) (b : Byte) : State :=
  { s with
    mem := Memory.store a.toNat b s.mem
    rewritten := if s.ctx.inBuffer a && !s.rewritten.contains a then a :: s.rewritten else s.rewritten }

end Sys2Proof.Machine
end

