-- ==== Sys2Proof/Machine/CeilLog2.lean ====
section
/-!
DEFINITION. The ceiling-log2 helper (spec/40_ceil_log2.md).
-/

namespace Sys2Proof.Machine

/-- The least `r` from `r0` on, over at most `fuel` candidates, with `2^r >= v`. -/
def leastPowerFrom (v : Nat) (r0 : Nat) : Nat → Nat
  | 0 => r0
  | fuel + 1 => if v ≤ 2 ^ r0 then r0 else leastPowerFrom v (r0 + 1) fuel

/-- "The least `r` in `0..32` with `2^r >= v`", on unbounded integers (R110). -/
def ceilLog2 (v : Word) : Nat := leastPowerFrom v.toNat 0 32

/-- CEIL_LOG2 (R110): ERR_ILLEGAL for input 0 (R111). -/
def execCeilLog2 (v : Word) (s : State) : Host.Outcome State Fault Refusal :=
  if v = 0#32 then .next (s.fail .illegal)
  else .next (s.respond .ok (natValue (ceilLog2 v)))

end Sys2Proof.Machine
end

