-- ==== Sys2Proof/Machine/CoreReader.lean ====
section
/-!
DEFINITION. The core reader's commands: INIT, SKIP, SKIP_TO_NEXT_BYTE (spec/41_core.md).
-/

namespace Sys2Proof.Machine

/-- The registers after INIT (R120, R40). -/
def initContext (base : Address) (size : Word) : Context :=
  { dataBase := base, size := size, bytePos := 0#32, firstByte := Config.firstByteSentinel,
    cache := Config.cacheReset, bitsInCache := 0#6, epbCount := 0#32 }

/-- INIT (R120): never fails, reads no memory. It begins a new use of the reader: what the host stored before it is
what the reader sees (R59, R252). -/
def execInit (base : Address) (size : Word) (s : State) : Host.Outcome State Fault Refusal :=
  .next (s.newUse.commit (initContext base size) 0#35)

/-- SKIP (R125): Refill, then the `n` bits are discarded. -/
def execSkip (n : BitCount) (s : State) : Host.Outcome State Fault Refusal :=
  if countInRange 32 n then
    match refill s.readerMem s.ctx n.toNat with
    | none => .next (s.fail .insufficientData)
    | some t => .next (s.commit { t with bitsInCache := t.bitsInCache - n } 0#35)
  else .next (s.fail .illegal)

/-- SKIP_TO_NEXT_BYTE (R127): aligned, it steps over one raw byte without fetching it; mid-byte, it discards the unread
bits. -/
def execSkipToNextByte (s : State) : Host.Outcome State Fault Refusal :=
  if s.ctx.bitsInCache = 0#6 then
    if s.ctx.bytePos.toNat < s.ctx.size.toNat then
      .next (s.commit { s.ctx with bytePos := s.ctx.bytePos + 1#32 } 0#35)
    else .next (s.fail .insufficientData)
  else .next (s.commit { s.ctx with bitsInCache := 0#6 } 0#35)

end Sys2Proof.Machine
end

