-- ==== Sys2Proof/Machine/ExpGolomb.lean ====
section
/-!
DEFINITION. The exponential-Golomb decoder: GET_UE and GET_SE (spec/43_exp_golomb.md).
-/

namespace Sys2Proof.Machine

/-- The zero-counting loop of R170 from `i` zeros on, with at most `fuel` reads: the number of zeros before the first
`1` and the copy after that `1`; none when a single-bit read fails. -/
def countZerosLoop (mem : Memory) : Nat → Nat → Context → Option (Nat × Context)
  | 0, _, _ => none
  | fuel + 1, i, t =>
    match getBits mem t 1 with
    | none => none
    | some (b, t') => if b = 1 then some (i, t') else countZerosLoop mem fuel (i + 1) t'

/-- An upper bound on the single-bit reads that can succeed from a copy: each consumes a bit of the budget (R263). -/
def Context.readBound (t : Context) : Nat := 8 * (t.size.toNat - t.bytePos.toNat) + t.bitsInCache.toNat

/-- The zero-counting loop of R170. -/
def countZeros (mem : Memory) (t : Context) : Option (Nat × Context) :=
  countZerosLoop mem (t.readBound + 1) 0 t

/-- The remainder of a code with `i` leading zeros: no read for `i = 0` (R171), else the next `i` bits. -/
def ueRemainder (mem : Memory) (t : Context) (i : Nat) : Option (Nat × Context) :=
  if i = 0 then some (0, t) else getBits mem t i

/-- `k = (2^i - 1 + value) mod 2^32` (R171). -/
def ueCode (i value : Nat) : Word := BitVec.ofNat 32 (2 ^ i - 1 + value)

/-- The body of GET_UE up to `k` (R170): insufficient data while counting, then code overflow, then insufficient data
in the remainder (R174). -/
def ueDecode (mem : Memory) (t : Context) : Except Status (Word × Context) :=
  match countZeros mem t with
  | none => .error .insufficientData
  | some (i, t1) =>
    if Config.ueMaxZeros < i then .error .codeOverflow
    else
      match ueRemainder mem t1 i with
      | none => .error .insufficientData
      | some (value, t2) => .ok (ueCode i value, t2)

/-- The zig-zag mapping of R172 as an exact integer. -/
def zigZag (k : Nat) : Int := if k % 2 = 1 then ((k + 1) / 2 : Nat) else -((k / 2 : Nat) : Int)

/-- GET_UE (R170). -/
def execGetUe (s : State) : Host.Outcome State Fault Refusal :=
  match ueDecode s.readerMem s.ctx with
  | .error st => .next (s.fail st)
  | .ok (k, t) => .next (s.commit t (wordValue k))

/-- GET_SE (R172, R173): the low 32 bits of the zig-zag image, in `value[31:0]`. -/
def execGetSe (s : State) : Host.Outcome State Fault Refusal :=
  match ueDecode s.readerMem s.ctx with
  | .error st => .next (s.fail st)
  | .ok (k, t) => .next (s.commit t (wordValue (BitVec.ofInt 32 (zigZag k.toNat))))

end Sys2Proof.Machine
end

