-- ==== Sys2Proof/Machine/FixedWidth.lean ====
section
/-!
DEFINITION. The fixed-width gets and peeks (spec/42_fixed_width.md). The three widths differ only in the legal range
of `n` (R158).
-/

namespace Sys2Proof.Machine

/-- GET_BITS_UINT8 (R151). -/
def execGetBitsUint8 (n : BitCount) (s : State) : Host.Outcome State Fault Refusal := getBitsOp 8 n s

/-- GET_BITS_UINT16 (R152). -/
def execGetBitsUint16 (n : BitCount) (s : State) : Host.Outcome State Fault Refusal := getBitsOp 16 n s

/-- GET_BITS_UINT32 (R153). -/
def execGetBitsUint32 (n : BitCount) (s : State) : Host.Outcome State Fault Refusal := getBitsOp 32 n s

/-- PEEK_BITS_UINT8 (R154). -/
def execPeekBitsUint8 (n : BitCount) (s : State) : Host.Outcome State Fault Refusal := peekBitsOp 8 n s

/-- PEEK_BITS_UINT16 (R155). -/
def execPeekBitsUint16 (n : BitCount) (s : State) : Host.Outcome State Fault Refusal := peekBitsOp 16 n s

/-- PEEK_BITS_UINT32 (R156). -/
def execPeekBitsUint32 (n : BitCount) (s : State) : Host.Outcome State Fault Refusal := peekBitsOp 32 n s

end Sys2Proof.Machine
end

