-- ==== Sys2Proof/Machine/StreamUtils.lean ====
section
/-!
DEFINITION. The stream-level utilities: the four plain queries, HAS_MORE_RBSP_DATA and SCAN_FOR_START_CODES
(spec/44_stream_utils.md).
-/

namespace Sys2Proof.Machine

/-- IS_BYTE_ALIGNED (R191). -/
def execIsByteAligned (s : State) : Host.Outcome State Fault Refusal :=
  .next (s.respond .ok (boolValue (s.ctx.bitsInCache == 0#6)))

/-- GET_POSITION_BITS (R193). -/
def execGetPositionBits (s : State) : Host.Outcome State Fault Refusal :=
  .next (s.respond .ok (intValue s.ctx.positionBits))

/-- GET_REMAINING_BITS (R194). -/
def execGetRemainingBits (s : State) : Host.Outcome State Fault Refusal :=
  .next (s.respond .ok (intValue s.ctx.remainingBits))

/-- GET_EPB_COUNT (R195). -/
def execGetEpbCount (s : State) : Host.Outcome State Fault Refusal :=
  .next (s.respond .ok (wordValue s.ctx.epbCount))

/-- The algorithm of R196; a peek is GetBits on a copy that is dropped. An exhausted first peek answers false (R197);
the second cannot be exhausted in a state at rest (R196 (c)) and answers false as well elsewhere. -/
def hasMoreRbspData (mem : Memory) (c : Context) : Bool :=
  let r := c.remainingBits
  if r = 0 then false
  else if 8 < r then true
  else
    match getBits mem c 1 with
    | none => false
    | some (b, _) =>
      if b = 0 then true
      else if r = 1 then false
      else
        match getBits mem c r.toNat with
        | none => false
        | some (v, _) => v &&& (2 ^ (r.toNat - 1) - 1) != 0

/-- HAS_MORE_RBSP_DATA (R196): always OK, no register written. -/
def execHasMoreRbspData (s : State) : Host.Outcome State Fault Refusal :=
  .next (s.respond .ok (boolValue (hasMoreRbspData s.readerMem s.ctx)))

/-- A start code `00 00 01` at offset `p` of the buffer at `base`: raw bytes, no stripping (R198, R199 (e)). -/
def startCodeAt (mem : Memory) (base : Address) (p : Nat) : Bool :=
  mem.read (byteAddress base p) == 0x00#8 && mem.read (byteAddress base (p + 1)) == 0x00#8 &&
    mem.read (byteAddress base (p + 2)) == 0x01#8

/-- The scan from offset `p` over the next `k` candidate offsets: the first that matches. -/
def scanFrom (mem : Memory) (base : Address) (p : Nat) : Nat → Option Nat
  | 0 => none
  | k + 1 => if startCodeAt mem base p then some p else scanFrom mem base (p + 1) k

/-- The least `p` with `p + 3 <= size` and a start code at `p` (R198, R199 (a)). -/
def scan (mem : Memory) (base : Address) (size : Word) : Option Nat := scanFrom mem base 0 (size.toNat - 2)

/-- SCAN_FOR_START_CODES (R198): the offset, or NOT_FOUND; the reader context is neither read nor written. Its bytes
are those stored when it is issued, in the live buffer too (R59, R61). -/
def execScanForStartCodes (base : Address) (size : Word) (s : State) : Host.Outcome State Fault Refusal :=
  match scan s.mem base size with
  | some p => .next (s.respond .ok (natValue p))
  | none => .next (s.fail .notFound)

end Sys2Proof.Machine
end

