-- ==== Sys2Proof/Machine/Dispatch.lean ====
section
/-! DEFINITION. One arm per command: each calls that command's meaning. -/

namespace Sys2Proof.Machine

/-- What a command does to the state (spec/30_encoding.md R87, column "semantics"). -/
def exec (i : Instr) (s : State) : Host.Outcome State Fault Refusal :=
  match i with
  | .init base size => Sys2Proof.Machine.execInit base size s
  | .skip n => Sys2Proof.Machine.execSkip n s
  | .skipToNextByte => Sys2Proof.Machine.execSkipToNextByte s
  | .getBitsUint8 n => Sys2Proof.Machine.execGetBitsUint8 n s
  | .getBitsUint16 n => Sys2Proof.Machine.execGetBitsUint16 n s
  | .getBitsUint32 n => Sys2Proof.Machine.execGetBitsUint32 n s
  | .peekBitsUint8 n => Sys2Proof.Machine.execPeekBitsUint8 n s
  | .peekBitsUint16 n => Sys2Proof.Machine.execPeekBitsUint16 n s
  | .peekBitsUint32 n => Sys2Proof.Machine.execPeekBitsUint32 n s
  | .getUe => Sys2Proof.Machine.execGetUe s
  | .getSe => Sys2Proof.Machine.execGetSe s
  | .isByteAligned => Sys2Proof.Machine.execIsByteAligned s
  | .getPositionBits => Sys2Proof.Machine.execGetPositionBits s
  | .getRemainingBits => Sys2Proof.Machine.execGetRemainingBits s
  | .getEpbCount => Sys2Proof.Machine.execGetEpbCount s
  | .hasMoreRbspData => Sys2Proof.Machine.execHasMoreRbspData s
  | .scanForStartCodes base size => Sys2Proof.Machine.execScanForStartCodes base size s
  | .ceilLog2 v => Sys2Proof.Machine.execCeilLog2 v s

end Sys2Proof.Machine
end

