-- ==== Sys2Proof/Machine/Accept.lean ====
section
/-!
DEFINITION. Accepting one command beat: decoding comes first, and a beat that selects no row is answered without
anything else being looked at (spec/60_exceptions.md R224); otherwise the command it spells is executed.
-/

namespace Sys2Proof.Machine

/-- The answer to one beat, with the beat already taken from the port (R224, R225). -/
def acceptBeat (beat : CommandBeat) (s : State) : Host.Outcome State Fault Refusal :=
  match decode beat with
  | .error _ => .next (s.fail .illegal)
  | .ok i => exec i s

/-- The state in which the host's next beat has been taken from the port. -/
def State.withCommands (s : State) (rest : List CommandBeat) : State := { s with commands := rest }

end Sys2Proof.Machine
end

