-- ==== Sys2Proof/Machine/Step.lean ====
section
/-!
DEFINITION. One step of the machine: one command, from its beat to its response (spec/00_scope.md R7).
-/

namespace Sys2Proof.Machine

/-- One step. The next beat is taken and answered before the one after it is looked at (R253). While the host issues
nothing the block waits and nothing changes: only commands and reset write registers (R250; log entry 3). -/
def step (s : State) : Host.Outcome State Fault Refusal :=
  match s.commands with
  | [] => .next s
  | beat :: rest => acceptBeat beat (s.withCommands rest)

/-- `s` with the beat of table word `w` on the command port, where `step` takes its next command. -/
def State.withFetchWord (s : State) (nbits w : Nat) : State :=
  s.withCommands (beatOfWord nbits w :: s.commands)

end Sys2Proof.Machine
end

