-- ==== Sys2Proof/Safety.lean ====
section
/-!
DEFINITION. The terms the claims use: the invariants of the registers (spec/10_state.md R27, R30 to R32), the stripper
seen as a fold over raw bytes (spec/41_core.md R126, R128) and the bit string a reader still has to deliver
(spec/20_memory.md R54).
-/

namespace Sys2Proof.Machine

/-- The registers at rest: what R30, R31, R32 and R27 say of them between two commands. -/
structure Context.Inv (c : Context) : Prop where
  /-- `bits_in_cache <= 7` (R30) -/
  bits_le : c.bitsInCache.toNat ≤ 7
  /-- `byte_pos <= size` (R31) -/
  pos_le : c.bytePos.toNat ≤ c.size.toNat
  /-- `8*byte_pos >= bits_in_cache` (R32) -/
  bits_backed : c.bitsInCache.toNat ≤ 8 * c.bytePos.toNat
  /-- `epb_count <= byte_pos` (R27) -/
  epb_le : c.epbCount.toNat ≤ c.bytePos.toNat

/-- The machine's invariant: the registers at rest, memory in its canonical form, and the rewritten addresses inside
the live buffer. -/
structure State.Inv (s : State) : Prop where
  /-- the registers -/
  ctx : s.ctx.Inv
  /-- buffer memory -/
  mem : s.mem.wf = true
  /-- what is recorded as rewritten lies in the live buffer -/
  rewritten : ∀ a ∈ s.rewritten, s.ctx.inBuffer a = true

/-- The raw bytes at offsets `p, p+1, ...`, `count` of them, of the buffer at `base` (R52). -/
def rawFrom (mem : Memory) (base : Address) (p : Nat) : Nat → List Byte
  | 0 => []
  | count + 1 => mem.read (byteAddress base p) :: rawFrom mem base (p + 1) count

/-- The raw bytes a reader has not fetched: offsets `byte_pos` to `size - 1` (R126). -/
def Context.rawRest (mem : Memory) (c : Context) : List Byte :=
  rawFrom mem c.dataBase c.bytePos.toNat (c.size.toNat - c.bytePos.toNat)

/-- The pushed bytes of R128's fold: `a`, `b` are the last but one and the last pushed byte, `js` says that the byte
before was dropped. -/
def strip (a b : Byte) (js : Bool) : List Byte → List Byte
  | [] => []
  | x :: rest =>
    if !js && x == 0x03#8 && b == 0x00#8 && a == 0x00#8 then strip a b true rest
    else x :: strip b x false rest

/-- What R128's fold carries along, and the number of drops so far. -/
structure StripFold where
  /-- the last but one pushed byte -/
  a : Byte
  /-- the last pushed byte -/
  b : Byte
  /-- the byte before was dropped -/
  js : Bool
  /-- drops so far -/
  drops : Nat
  deriving DecidableEq, Repr

/-- One step of R128's fold. -/
def StripFold.next (f : StripFold) (x : Byte) : StripFold :=
  if !f.js && x == 0x03#8 && f.b == 0x00#8 && f.a == 0x00#8 then { f with js := true, drops := f.drops + 1 }
  else { f with a := f.b, b := x, js := false }

/-- R128's fold over a list of raw bytes from `(0xFF, 0xFF, false)`. -/
def StripFold.run (raw : List Byte) : StripFold := raw.foldl StripFold.next ⟨0xFF#8, 0xFF#8, false, 0⟩

/-- The bits of a byte in stream order, bit 7 first (R54). -/
def byteBits (x : Byte) : List Bool := (List.range 8).map fun k => x.getLsbD (7 - k)

/-- The valid bits of the window in stream order: `W[bits_in_cache-1]` first, `W[0]` last (R28). -/
def Context.windowBits (c : Context) : List Bool :=
  (List.range c.bitsInCache.toNat).map fun k => c.window.getLsbD (c.bitsInCache.toNat - 1 - k)

/-- The bit string the reader can still deliver: the unread bits of the window, then those of the raw bytes left, run
through the stripper from the current history (R126, R128). -/
def Context.deliverable (mem : Memory) (c : Context) : List Bool :=
  c.windowBits ++ (strip (c.cache.extractLsb' 0 8) c.firstByte false (c.rawRest mem)).flatMap byteBits

/-- A bit string read as an unsigned number, first bit most significant (R54). -/
def bitsToNat (l : List Bool) : Nat := l.foldl (fun acc bit => 2 * acc + bit.toNat) 0

/-- The registers agree with R128's fold over the raw bytes before `byte_pos`. -/
structure Context.FollowsFold (mem : Memory) (c : Context) : Prop where
  /-- `first_byte = b` -/
  first : c.firstByte = (StripFold.run (rawFrom mem c.dataBase 0 c.bytePos.toNat)).b
  /-- `cache[7:0] = a` -/
  low : c.cache.extractLsb' 0 8 = (StripFold.run (rawFrom mem c.dataBase 0 c.bytePos.toNat)).a
  /-- `epb_count` is the number of drops -/
  epb : c.epbCount.toNat = (StripFold.run (rawFrom mem c.dataBase 0 c.bytePos.toNat)).drops
  /-- the raw byte before `byte_pos`, if there is one, is a push -/
  pushed : (StripFold.run (rawFrom mem c.dataBase 0 c.bytePos.toNat)).js = false

/-- The zero bits before the first `1` of a bit string, or its length where it holds no `1` (R95, R170). -/
def leadingZeros (l : List Bool) : Nat := (l.takeWhile fun bit => !bit).length

/-- The `width` low bits of a number in stream order, most significant first (R54). -/
def natBits (v width : Nat) : List Bool := (List.range width).map fun k => v.testBit (width - 1 - k)

/-- The unsigned Exp-Golomb code of `k` with `i = floor(log2(k+1))`: `i` zeros, a `1`, and `k + 1 - 2^i` in `i` bits
(R95). -/
def ueBits (k : Nat) : List Bool :=
  List.replicate (Nat.log2 (k + 1)) false ++ true :: natBits (k + 1 - 2 ^ Nat.log2 (k + 1)) (Nat.log2 (k + 1))

/-- The unsigned code of a signed number under the zig-zag mapping of R172. -/
def zigZagCode (v : Int) : Nat := if 0 < v then (2 * v - 1).toNat else (-2 * v).toNat

/-- The get commands, each with the bound `N` of its bit count (R151 to R153). -/
def getForms : List (Nat × (BitCount → Instr)) :=
  [(8, Instr.getBitsUint8), (16, Instr.getBitsUint16), (32, Instr.getBitsUint32)]

/-- The peek commands, each with the bound `N` of its bit count (R154 to R156). -/
def peekForms : List (Nat × (BitCount → Instr)) :=
  [(8, Instr.peekBitsUint8), (16, Instr.peekBitsUint16), (32, Instr.peekBitsUint32)]

/-- Two contexts that differ at most in the bits of `cache` that no later bit and no later emulation-prevention test
can read (R25): the low byte of `cache` counts only while `first_byte` is zero. -/
structure Context.SameButCache (c d : Context) : Prop where
  /-- every other register is the same -/
  others : { c with cache := d.cache } = d
  /-- the history the emulation-prevention test can reach is the same -/
  history : c.firstByte = 0x00#8 → c.cache.extractLsb' 0 8 = d.cache.extractLsb' 0 8

end Sys2Proof.Machine
end

