-- ==== Sys2Proof/Certificates/Slice0/Obligations.lean ====
section
/-!
DEFINITION. The statements for the provers, one per entry of OBLIGATIONS.json. Each docstring names the rules of spec/
the statement rests on.
-/

open Sys2Proof Sys2Proof.Machine

/-! ### Encoding -/

/-- R81 to R87: decoding the beat of a command gives the command back, for all eighteen and every operand value. -/
def Obligations.DecodeEncodeRoundTrip : Prop :=
  ∀ i : Instr, decode (encode i) = .ok i

/-- R87 with R82 to R86: each accepted beat has one meaning. The command read from it has exactly the beat's `cmd` as
its own, and carries the beat's operand fields where its format has them. -/
def Obligations.AcceptedBeatIsItsCommandsBeat : Prop :=
  ∀ (beat : CommandBeat) (i : Instr), decode beat = .ok i →
    (encode i).cmd = beat.cmd ∧
    (∀ base size, i = .init base size → base = beat.opa ∧ size = beat.opb) ∧
    (∀ base size, i = .scanForStartCodes base size → base = beat.opa ∧ size = beat.opb) ∧
    (∀ v, i = .ceilLog2 v → v = beat.opa)

/-- R82 to R85: the four formats, with the commands that use each. That a format-N beat decodes also where `n` is out of
range (and is answered ERR_ILLEGAL) is the model's choice, log entry 2. Formats Z and N ignore `opa` and `opb`,
format V ignores `opb`. -/
def Obligations.FormatsSpellTheirCommands : Prop :=
  (∀ p ∈ [(0x03#8, Instr.skipToNextByte), (0x10#8, Instr.getUe), (0x11#8, Instr.getSe),
      (0x20#8, Instr.isByteAligned), (0x21#8, Instr.getPositionBits), (0x22#8, Instr.getRemainingBits),
      (0x23#8, Instr.getEpbCount), (0x24#8, Instr.hasMoreRbspData)],
    ∀ opa opb : Word, decode ⟨p.1 ++ 0#24, opa, opb⟩ = .ok p.2) ∧
  (∀ p ∈ [(0x02#8, Instr.skip), (0x08#8, Instr.getBitsUint8), (0x09#8, Instr.getBitsUint16),
      (0x0A#8, Instr.getBitsUint32), (0x0C#8, Instr.peekBitsUint8), (0x0D#8, Instr.peekBitsUint16),
      (0x0E#8, Instr.peekBitsUint32)],
    ∀ (n : BitCount) (opa opb : Word), decode ⟨p.1 ++ 0#18 ++ n, opa, opb⟩ = .ok (p.2 n)) ∧
  (∀ opa opb : Word, decode ⟨0x01#8 ++ 0#24, opa, opb⟩ = .ok (.init opa opb)) ∧
  (∀ opa opb : Word, decode ⟨0x30#8 ++ 0#24, opa, opb⟩ = .ok (.scanForStartCodes opa opb)) ∧
  (∀ opa opb : Word, decode ⟨0x31#8 ++ 0#24, opa, opb⟩ = .ok (.ceilLog2 opa))

/-- The command words of R120, R125, R151, R154, R170, R191, R198, R110 written out from the spec's encodings. -/
def Obligations.SpecWordsDecode : Prop :=
  decode ⟨0x01000000#32, 0x00001003#32, 8#32⟩ = .ok (.init 0x1003#32 8#32) ∧
  decode ⟨0x02000004#32, 0#32, 0#32⟩ = .ok (.skip 4#6) ∧
  decode ⟨0x08000003#32, 0#32, 0#32⟩ = .ok (.getBitsUint8 3#6) ∧
  decode ⟨0x0C000008#32, 0#32, 0#32⟩ = .ok (.peekBitsUint8 8#6) ∧
  decode ⟨0x10000000#32, 0#32, 0#32⟩ = .ok .getUe ∧
  decode ⟨0x20000000#32, 0#32, 0#32⟩ = .ok .isByteAligned ∧
  decode ⟨0x30000000#32, 0x00005000#32, 6#32⟩ = .ok (.scanForStartCodes 0x5000#32 6#32) ∧
  decode ⟨0x31000000#32, 5#32, 0xDEADBEEF#32⟩ = .ok (.ceilLog2 5#32)

/-- R88: every opcode outside R87 is reserved; a beat with one is answered ERR_ILLEGAL with `value = 0`, whatever its
other bits, and changes no register. -/
def Obligations.ReservedOpcodeIsIllegal : Prop :=
  ∀ (s : State) (beat : CommandBeat) (rest : List CommandBeat), s.commands = beat :: rest →
    (let op := (beat.cmd >>> 24).toNat
     op = 0x00 ∨ (0x04 ≤ op ∧ op ≤ 0x07) ∨ op = 0x0B ∨ op = 0x0F ∨ (0x12 ≤ op ∧ op ≤ 0x1F) ∨
       (0x25 ≤ op ∧ op ≤ 0x2F) ∨ 0x32 ≤ op) →
    step s = .next { s with commands := rest, responses := s.responses ++ [⟨.illegal, 0#35⟩] }

/-- R89: a beat whose opcode is in R87 and that has a non-zero bit where its format demands zero is answered the same
way. -/
def Obligations.ReservedBitIsIllegal : Prop :=
  ∀ (s : State) (beat : CommandBeat) (rest : List CommandBeat), s.commands = beat :: rest →
    (((beat.cmd >>> 24).toNat ∈ [0x02, 0x08, 0x09, 0x0A, 0x0C, 0x0D, 0x0E] ∧ beat.cmd.extractLsb' 6 18 ≠ 0#18) ∨
      ((beat.cmd >>> 24).toNat ∈ [0x01, 0x03, 0x10, 0x11, 0x20, 0x21, 0x22, 0x23, 0x24, 0x30, 0x31] ∧
        beat.cmd.extractLsb' 0 24 ≠ 0#24)) →
    step s = .next { s with commands := rest, responses := s.responses ++ [⟨.illegal, 0#35⟩] }

/-- R90: a format-N beat whose `n` is outside its range is answered the same way, in every state: also where the reader
has no byte left (R224). -/
def Obligations.CountOutOfRangeIsIllegal : Prop :=
  ∀ p ∈ [(0x02#8, 32), (0x08#8, 8), (0x09#8, 16), (0x0A#8, 32), (0x0C#8, 8), (0x0D#8, 16), (0x0E#8, 32)],
    ∀ (n : BitCount) (opa opb : Word) (s : State) (rest : List CommandBeat),
      s.commands = ⟨p.1 ++ 0#18 ++ n, opa, opb⟩ :: rest → n.toNat = 0 ∨ p.2 < n.toNat →
      step s = .next { s with commands := rest, responses := s.responses ++ [⟨.illegal, 0#35⟩] }

/-! ### The step -/

/-- R7, R253: when the beat on the port decodes to a command, the step takes the beat and is the command. -/
def Obligations.StepRunsTheDecodedCommand : Prop :=
  ∀ (s : State) (beat : CommandBeat) (rest : List CommandBeat) (i : Instr),
    s.commands = beat :: rest → decode beat = .ok i → step s = exec i { s with commands := rest }

/-- While the host issues nothing, a step changes nothing. The model's choice, log entry 3. -/
def Obligations.StepWithoutCommandIsIdle : Prop :=
  ∀ s : State, s.commands = [] → step s = .next s

/-- R92: every command produces exactly one response beat; its value is zero with any status but OK (R94). -/
def Obligations.EveryCommandAnswersOnce : Prop :=
  ∀ (s : State) (beat : CommandBeat) (rest : List CommandBeat), s.commands = beat :: rest →
    ∃ (t : State) (r : Response), step s = .next t ∧ t.responses = s.responses ++ [r] ∧ t.commands = rest ∧
      (r.status ≠ .ok → r.value = 0#35)

/-- R225: a command whose response is not OK writes no register, and its value is 0. -/
def Obligations.FailureChangesNoRegister : Prop :=
  ∀ (s t : State) (beat : CommandBeat) (rest : List CommandBeat) (r : Response), s.commands = beat :: rest →
    step s = .next t → t.responses = s.responses ++ [r] → r.status ≠ .ok →
    t = { s with commands := rest, responses := s.responses ++ [⟨r.status, 0#35⟩] }

/-- R226, with R59: while the buffer is unchanged, a failed command issued again fails again in the same way. -/
def Obligations.RepeatedFailureFailsAgain : Prop :=
  ∀ (i : Instr) (s t : State) (r : Response), s.rewritten = [] → exec i s = .next t → t.responses = s.responses ++ [r] →
    r.status.isFailure = true →
    exec i t = .next { s with responses := s.responses ++ [r, r] }

/-- R58: the block never writes memory. -/
def Obligations.MemoryIsNeverWritten : Prop :=
  ∀ s t : State, step s = .next t → t.mem = s.mem ∧ ∀ a : Address, t.mem.read a = s.mem.read a

/-- R21, R22: only INIT writes `data_base` and `size`. -/
def Obligations.OnlyInitMovesTheBuffer : Prop :=
  ∀ (i : Instr) (s t : State), exec i s = .next t →
    (t.ctx.dataBase ≠ s.ctx.dataBase ∨ t.ctx.size ≠ s.ctx.size) →
    ∃ (base : Address) (size : Word), i = .init base size ∧ t.ctx.dataBase = base ∧ t.ctx.size = size

/-- R30, R31, R32, R27 and the canonical form of memory: every step keeps the invariant. Its clause on the rewritten
addresses is about the model's own record (the model's choice, log entry 5). -/
def Obligations.StepKeepsInvariant : Prop :=
  ∀ s t : State, s.Inv → step s = .next t → t.Inv

/-- The invariant holds after reset. -/
def Obligations.ResetMeetsInvariant : Prop :=
  State.reset.Inv

/-- R33, R23: `epb_count` and `byte_pos` never fall, except by INIT. -/
def Obligations.CountersFallOnlyByInit : Prop :=
  ∀ (i : Instr) (s t : State), s.ctx.Inv → exec i s = .next t → (∀ base size, i ≠ .init base size) →
    s.ctx.epbCount.toNat ≤ t.ctx.epbCount.toNat ∧ s.ctx.bytePos.toNat ≤ t.ctx.bytePos.toNat

/-! ### Reset and INIT -/

/-- R40: the registers after hardware reset are those the command INIT 0 0 leaves, each as the table of R40 gives it.
R250: no command is in flight and no response pending after reset, which the model says by its two lists being empty
(the model's choice, log entry 6). That no address is recorded as rewritten is the model's choice, log entry 5. -/
def Obligations.ResetRegisters : Prop :=
  ∀ s : State,
    s.hardwareReset.ctx =
      { dataBase := 0x00000000#32, size := 0#32, bytePos := 0#32, firstByte := 0xFF#8, cache := 0x000000FF#32,
        bitsInCache := 0#6, epbCount := 0#32 } ∧
    State.reset.ctx = s.hardwareReset.ctx ∧ State.reset.commands = [] ∧ State.reset.responses = [] ∧
    State.reset.rewritten = [] ∧ s.hardwareReset.rewritten = [] ∧
    ∃ t, exec (.init 0#32 0#32) s = .next t ∧ t.ctx = s.hardwareReset.ctx

/-- R40, its last sentence: with the registers after reset every read, skip and peek fails with ERR_INSUFFICIENT_DATA,
every query returns 0, and IS_BYTE_ALIGNED returns 1. -/
def Obligations.ResetIsAnEmptyReader : Prop :=
  ∀ s : State, s.ctx = Context.reset →
    (∀ i ∈ [Instr.skipToNextByte, Instr.getUe, Instr.getSe],
      exec i s = .next { s with responses := s.responses ++ [⟨.insufficientData, 0#35⟩] }) ∧
    (∀ p ∈ (32, Instr.skip) :: getForms ++ peekForms, ∀ n : BitCount, 1 ≤ n.toNat → n.toNat ≤ p.1 →
      exec (p.2 n) s = .next { s with responses := s.responses ++ [⟨.insufficientData, 0#35⟩] }) ∧
    (∀ i ∈ [Instr.getPositionBits, Instr.getRemainingBits, Instr.getEpbCount, Instr.hasMoreRbspData],
      exec i s = .next { s with responses := s.responses ++ [⟨.ok, 0#35⟩] }) ∧
    exec .isByteAligned s = .next { s with responses := s.responses ++ [⟨.ok, 1#35⟩] }

/-- R120: INIT sets all seven registers, answers OK 0 and never fails. That it empties the record of rewritten addresses
is the model's choice, log entry 5: R120 speaks of no such record. -/
def Obligations.InitSetsAllRegisters : Prop :=
  ∀ (base : Address) (size : Word) (s : State),
    exec (.init base size) s = .next
      { s with
        ctx := { dataBase := base, size := size, bytePos := 0#32, firstByte := 0xFF#8, cache := 0x000000FF#32,
                 bitsInCache := 0#6, epbCount := 0#32 }
        rewritten := []
        responses := s.responses ++ [⟨.ok, 0#35⟩] }

/-! ### Refill -/

/-- R121, R122, R123: the model's `refill`, which the statements below name, is the loop of R121. Enough valid bits: no
fetch. No byte left: exhausted. A byte that is no emulation-prevention byte is pushed. One that is (`03` with
`first_byte` and `cache[7:0]` zero) is dropped and counted, and the byte after it is pushed unchecked; with none after
it, exhausted. -/
def Obligations.RefillPushesAndDrops : Prop :=
  ∀ (mem : Memory) (t : Context) (n : Nat) (b b2 : Byte) (isEpbByte : Prop), 1 ≤ n → n ≤ 32 →
    b = mem.read (t.dataBase + t.bytePos) → b2 = mem.read (t.dataBase + (t.bytePos + 1#32)) →
    (isEpbByte ↔ b = 0x03#8 ∧ t.firstByte = 0x00#8 ∧ t.cache.extractLsb' 0 8 = 0x00#8) →
    (n ≤ t.bitsInCache.toNat → refill mem t n = some t) ∧
    (t.bitsInCache.toNat < n →
      (t.size.toNat ≤ t.bytePos.toNat → refill mem t n = none) ∧
      (t.bytePos.toNat < t.size.toNat → ¬ isEpbByte →
        refill mem t n = refill mem
          { t with
            bytePos := t.bytePos + 1#32
            cache := (t.cache <<< 8) ||| t.firstByte.setWidth 32
            firstByte := b
            bitsInCache := t.bitsInCache + 8#6 } n) ∧
      (t.bytePos.toNat + 1 = t.size.toNat → isEpbByte → refill mem t n = none) ∧
      (t.bytePos.toNat + 1 < t.size.toNat → isEpbByte →
        refill mem t n = refill mem
          { t with
            bytePos := t.bytePos + 2#32
            cache := (t.cache <<< 8) ||| t.firstByte.setWidth 32
            firstByte := b2
            bitsInCache := t.bitsInCache + 8#6
            epbCount := t.epbCount + 1#32 } n))

/-! ### SKIP and SKIP_TO_NEXT_BYTE -/

/-- R125: SKIP refills and then discards `n` bits; exhausted is ERR_INSUFFICIENT_DATA, a bad count ERR_ILLEGAL. -/
def Obligations.SkipRefillsAndDiscards : Prop :=
  ∀ (n : BitCount) (s : State),
    (1 ≤ n.toNat → n.toNat ≤ 32 →
      (∀ u, refill s.readerMem s.ctx n.toNat = some u →
        exec (.skip n) s = .next
          { s with
            ctx := { u with bitsInCache := u.bitsInCache - n }
            responses := s.responses ++ [⟨.ok, 0#35⟩] }) ∧
      (refill s.readerMem s.ctx n.toNat = none →
        exec (.skip n) s = .next { s with responses := s.responses ++ [⟨.insufficientData, 0#35⟩] })) ∧
    (n.toNat = 0 ∨ 32 < n.toNat →
      exec (.skip n) s = .next { s with responses := s.responses ++ [⟨.illegal, 0#35⟩] })

/-- R125, R126: SKIP passes over the next `n` deliverable bits, and fails exactly where there are fewer. -/
def Obligations.SkipPassesStreamBits : Prop :=
  ∀ (n : BitCount) (s : State), s.ctx.Inv → 1 ≤ n.toNat → n.toNat ≤ 32 →
    (n.toNat ≤ (s.ctx.deliverable s.readerMem).length →
      ∃ t, exec (.skip n) s = .next t ∧ t.ctx.deliverable s.readerMem = (s.ctx.deliverable s.readerMem).drop n.toNat ∧
        t.responses = s.responses ++ [⟨.ok, 0#35⟩] ∧ t.ctx.Inv ∧ t.ctx.dataBase = s.ctx.dataBase ∧
        t.ctx.size = s.ctx.size ∧ t.mem = s.mem ∧ t.rewritten = s.rewritten ∧ t.commands = s.commands) ∧
    ((s.ctx.deliverable s.readerMem).length < n.toNat →
      exec (.skip n) s = .next { s with responses := s.responses ++ [⟨.insufficientData, 0#35⟩] })

/-- R125: SKIP `n` leaves the registers GET_BITS_UINT32 `n` leaves, with the same status. -/
def Obligations.SkipLeavesWhatGetLeaves : Prop :=
  ∀ (n : BitCount) (s t u : State) (p q : Response), exec (.skip n) s = .next t → exec (.getBitsUint32 n) s = .next u →
    t.responses = s.responses ++ [p] → u.responses = s.responses ++ [q] → t.ctx = u.ctx ∧ p.status = q.status

/-- R127: SKIP_TO_NEXT_BYTE in its three cases. -/
def Obligations.SkipToNextByteCases : Prop :=
  ∀ s : State,
    (s.ctx.bitsInCache = 0#6 → s.ctx.bytePos.toNat < s.ctx.size.toNat →
      exec .skipToNextByte s = .next
        { s with
          ctx := { s.ctx with bytePos := s.ctx.bytePos + 1#32 }
          responses := s.responses ++ [⟨.ok, 0#35⟩] }) ∧
    (s.ctx.bitsInCache = 0#6 → s.ctx.size.toNat ≤ s.ctx.bytePos.toNat →
      exec .skipToNextByte s = .next { s with responses := s.responses ++ [⟨.insufficientData, 0#35⟩] }) ∧
    (s.ctx.bitsInCache ≠ 0#6 →
      exec .skipToNextByte s = .next
        { s with
          ctx := { s.ctx with bitsInCache := 0#6 }
          responses := s.responses ++ [⟨.ok, 0#35⟩] })

/-! ### Fixed-width reads and peeks -/

/-- R150 to R153: a get refills, answers the top `n` valid bits of the window, below `2^n`, and consumes them. -/
def Obligations.GetTakesTheTopOfTheWindow : Prop :=
  ∀ p ∈ getForms, ∀ (n : BitCount) (s : State),
    (1 ≤ n.toNat → n.toNat ≤ p.1 →
      (∀ u, refill s.readerMem s.ctx n.toNat = some u →
        ∃ v : Nat, v < 2 ^ n.toNat ∧
          v = (u.cache ++ u.firstByte).toNat / 2 ^ (u.bitsInCache.toNat - n.toNat) % 2 ^ n.toNat ∧
          exec (p.2 n) s = .next
            { s with
              ctx := { u with bitsInCache := u.bitsInCache - n }
              responses := s.responses ++ [⟨.ok, BitVec.ofNat 35 v⟩] }) ∧
      (refill s.readerMem s.ctx n.toNat = none →
        exec (p.2 n) s = .next { s with responses := s.responses ++ [⟨.insufficientData, 0#35⟩] })) ∧
    (n.toNat = 0 ∨ p.1 < n.toNat →
      exec (p.2 n) s = .next { s with responses := s.responses ++ [⟨.illegal, 0#35⟩] })

/-- R154 to R156: a peek answers the same bits and writes no register. -/
def Obligations.PeekTakesNothing : Prop :=
  ∀ p ∈ peekForms, ∀ (n : BitCount) (s : State),
    (1 ≤ n.toNat → n.toNat ≤ p.1 →
      (∀ u, refill s.readerMem s.ctx n.toNat = some u →
        exec (p.2 n) s = .next
          { s with
            responses := s.responses ++
              [⟨.ok, BitVec.ofNat 35
                ((u.cache ++ u.firstByte).toNat / 2 ^ (u.bitsInCache.toNat - n.toNat) % 2 ^ n.toNat)⟩] }) ∧
      (refill s.readerMem s.ctx n.toNat = none →
        exec (p.2 n) s = .next { s with responses := s.responses ++ [⟨.insufficientData, 0#35⟩] })) ∧
    (n.toNat = 0 ∨ p.1 < n.toNat →
      exec (p.2 n) s = .next { s with responses := s.responses ++ [⟨.illegal, 0#35⟩] })

/-- R54, R126: a get delivers the next `n` bits of the stripped bit string, the first in bit `n-1`, and leaves the rest;
it fails exactly where there are fewer than `n`. -/
def Obligations.GetDeliversStreamBits : Prop :=
  ∀ p ∈ getForms, ∀ (n : BitCount) (s : State), s.ctx.Inv → 1 ≤ n.toNat → n.toNat ≤ p.1 →
    (n.toNat ≤ (s.ctx.deliverable s.readerMem).length →
      ∃ t, exec (p.2 n) s = .next t ∧ t.ctx.deliverable s.readerMem = (s.ctx.deliverable s.readerMem).drop n.toNat ∧
        t.responses = s.responses ++
          [⟨.ok, BitVec.ofNat 35 (bitsToNat ((s.ctx.deliverable s.readerMem).take n.toNat))⟩] ∧
        t.ctx.Inv ∧ t.ctx.dataBase = s.ctx.dataBase ∧ t.ctx.size = s.ctx.size ∧ t.mem = s.mem ∧ t.rewritten = s.rewritten ∧
        t.commands = s.commands) ∧
    ((s.ctx.deliverable s.readerMem).length < n.toNat →
      exec (p.2 n) s = .next { s with responses := s.responses ++ [⟨.insufficientData, 0#35⟩] })

/-- R54, R126 for the peeks: the next `n` bits of the stripped bit string, with every register kept. -/
def Obligations.PeekShowsStreamBits : Prop :=
  ∀ p ∈ peekForms, ∀ (n : BitCount) (s : State), s.ctx.Inv → 1 ≤ n.toNat → n.toNat ≤ p.1 →
    (n.toNat ≤ (s.ctx.deliverable s.readerMem).length →
      exec (p.2 n) s = .next
        { s with
          responses := s.responses ++
            [⟨.ok, BitVec.ofNat 35 (bitsToNat ((s.ctx.deliverable s.readerMem).take n.toNat))⟩] }) ∧
    ((s.ctx.deliverable s.readerMem).length < n.toNat →
      exec (p.2 n) s = .next { s with responses := s.responses ++ [⟨.insufficientData, 0#35⟩] })

/-- R157: from any state a peek and the get of the same width and count answer the same; the peek changes no register,
and the get leaves Refill's registers with the `n` bits consumed. With R59 (the buffer is unchanged) the get issued
after the peek gives the same response. -/
def Obligations.PeekThenGetAgree : Prop :=
  ∀ (n : BitCount) (s : State), ∀ p ∈ [(Instr.peekBitsUint8, Instr.getBitsUint8),
      (Instr.peekBitsUint16, Instr.getBitsUint16), (Instr.peekBitsUint32, Instr.getBitsUint32)],
    ∃ (t u : State) (r : Response), exec (p.1 n) s = .next t ∧ exec (p.2 n) s = .next u ∧ t.ctx = s.ctx ∧
      t.responses = s.responses ++ [r] ∧ u.responses = s.responses ++ [r] ∧
      (r.status = .ok → ∃ w, refill s.readerMem s.ctx n.toNat = some w ∧
        u.ctx = { w with bitsInCache := w.bitsInCache - n }) ∧
      (r.status ≠ .ok → u.ctx = s.ctx) ∧
      (s.rewritten = [] → exec (p.2 n) t = .next { u with responses := s.responses ++ [r, r] })

/-- R158: for a count legal in two widths, the two commands are the same. -/
def Obligations.WidthsAgree : Prop :=
  ∀ (n : BitCount) (s : State), 1 ≤ n.toNat →
    (n.toNat ≤ 8 → exec (.getBitsUint8 n) s = exec (.getBitsUint16 n) s ∧
      exec (.peekBitsUint8 n) s = exec (.peekBitsUint16 n) s) ∧
    (n.toNat ≤ 16 → exec (.getBitsUint16 n) s = exec (.getBitsUint32 n) s ∧
      exec (.peekBitsUint16 n) s = exec (.peekBitsUint32 n) s)

/-- R55, with R59 (the buffer is unchanged): reading `a` bits and then `b` bits gives the two halves of reading `a + b` bits, and the same registers. -/
def Obligations.SplitReadsAgree : Prop :=
  ∀ (a b : BitCount) (s : State), s.ctx.Inv → s.rewritten = [] → 1 ≤ a.toNat → 1 ≤ b.toNat → a.toNat + b.toNat ≤ 32 →
    a.toNat + b.toNat ≤ (s.ctx.deliverable s.mem).length →
    ∃ (t u w : State) (v : Nat), exec (.getBitsUint32 (a + b)) s = .next t ∧ exec (.getBitsUint32 a) s = .next u ∧
      exec (.getBitsUint32 b) u = .next w ∧ w.ctx = t.ctx ∧ v < 2 ^ (a.toNat + b.toNat) ∧
      t.responses = s.responses ++ [⟨.ok, BitVec.ofNat 35 v⟩] ∧
      w.responses = s.responses ++
        [⟨.ok, BitVec.ofNat 35 (v / 2 ^ b.toNat)⟩, ⟨.ok, BitVec.ofNat 35 (v % 2 ^ b.toNat)⟩]

/-- R126: a read, peek or skip of `n` bits that answers OK had a budget of at least `n`. -/
def Obligations.BudgetIsNecessary : Prop :=
  ∀ p ∈ (32, Instr.skip) :: getForms ++ peekForms, ∀ (n : BitCount) (s t : State) (v : Value), s.ctx.Inv →
    exec (p.2 n) s = .next t → t.responses = s.responses ++ [⟨.ok, v⟩] →
    (n.toNat : Int) ≤ 8 * ((s.ctx.size.toNat : Int) - s.ctx.bytePos.toNat) + s.ctx.bitsInCache.toNat

/-- R257: an emulation-prevention byte that is the last byte of the buffer is consumed by no read; GET_REMAINING_BITS
reports 8 and HAS_MORE_RBSP_DATA answers false. -/
def Obligations.TrailingEpbIsNotConsumed : Prop :=
  ∀ s : State, s.ctx.bitsInCache = 0#6 → s.ctx.bytePos.toNat + 1 = s.ctx.size.toNat →
    s.readerMem.read (s.ctx.dataBase + s.ctx.bytePos) = 0x03#8 → s.ctx.firstByte = 0x00#8 →
    s.ctx.cache.extractLsb' 0 8 = 0x00#8 →
    (∀ i ∈ [Instr.getUe, Instr.getSe],
      exec i s = .next { s with responses := s.responses ++ [⟨.insufficientData, 0#35⟩] }) ∧
    (∀ p ∈ (32, Instr.skip) :: getForms ++ peekForms, ∀ n : BitCount, 1 ≤ n.toNat → n.toNat ≤ p.1 →
      exec (p.2 n) s = .next { s with responses := s.responses ++ [⟨.insufficientData, 0#35⟩] }) ∧
    exec .getRemainingBits s = .next { s with responses := s.responses ++ [⟨.ok, 8#35⟩] } ∧
    exec .hasMoreRbspData s = .next { s with responses := s.responses ++ [⟨.ok, 0#35⟩] } ∧
    exec .skipToNextByte s = .next
      { s with
        ctx := { s.ctx with bytePos := s.ctx.bytePos + 1#32 }
        responses := s.responses ++ [⟨.ok, 0#35⟩] }

/-! ### The stripper -/

/-- R122, R123: an aligned 8-bit read drops the next raw byte exactly when it is `03` and `first_byte` and `cache[7:0]`
are zero; the byte after a dropped byte is pushed whatever it is. -/
def Obligations.AlignedByteReadStripsOneByte : Prop :=
  ∀ (s : State) (b b2 : Byte) (isEpbByte : Prop), s.ctx.bitsInCache = 0#6 →
    b = s.readerMem.read (s.ctx.dataBase + s.ctx.bytePos) → b2 = s.readerMem.read (s.ctx.dataBase + (s.ctx.bytePos + 1#32)) →
    (isEpbByte ↔ b = 0x03#8 ∧ s.ctx.firstByte = 0x00#8 ∧ s.ctx.cache.extractLsb' 0 8 = 0x00#8) →
    (¬ isEpbByte → s.ctx.bytePos.toNat < s.ctx.size.toNat →
      exec (.getBitsUint8 8#6) s = .next
        { s with
          ctx := { s.ctx with
                   bytePos := s.ctx.bytePos + 1#32
                   cache := (s.ctx.cache <<< 8) ||| s.ctx.firstByte.setWidth 32
                   firstByte := b }
          responses := s.responses ++ [⟨.ok, b.setWidth 35⟩] }) ∧
    (isEpbByte → s.ctx.bytePos.toNat + 1 < s.ctx.size.toNat →
      exec (.getBitsUint8 8#6) s = .next
        { s with
          ctx := { s.ctx with
                   bytePos := s.ctx.bytePos + 2#32
                   cache := (s.ctx.cache <<< 8) ||| s.ctx.firstByte.setWidth 32
                   firstByte := b2
                   epbCount := s.ctx.epbCount + 1#32 }
          responses := s.responses ++ [⟨.ok, b2.setWidth 35⟩] })

/-- R128: the registers follow the fold over the raw bytes before `byte_pos`; every command keeps this but an aligned
SKIP_TO_NEXT_BYTE. -/
def Obligations.RegistersFollowTheFold : Prop :=
  ∀ (i : Instr) (s t : State), s.ctx.Inv → s.ctx.FollowsFold s.readerMem →
    (i = .skipToNextByte → s.ctx.bitsInCache ≠ 0#6) → exec i s = .next t → t.ctx.FollowsFold s.readerMem

/-- R128: the bits still to be delivered are those of the whole stripped buffer after the first
`8*(byte_pos - epb_count) - bits_in_cache`. -/
def Obligations.ConsumedBitsAreAPrefix : Prop :=
  ∀ s : State, s.ctx.Inv → s.ctx.FollowsFold s.readerMem →
    s.ctx.deliverable s.readerMem =
      ((strip 0xFF#8 0xFF#8 false (rawFrom s.readerMem s.ctx.dataBase 0 s.ctx.size.toNat)).flatMap byteBits).drop
        (8 * (s.ctx.bytePos.toNat - s.ctx.epbCount.toNat) - s.ctx.bitsInCache.toNat)

/-! ### Exponential-Golomb codes -/

/-- R170, R171, R174: GET_UE on the bit string the reader delivers. Its failures come in the order insufficient data
while counting, code overflow, insufficient data in the remainder; otherwise it answers
`(2^i - 1 + value) mod 2^32` and the cursor has passed `2*i + 1` bits. That
the record of rewritten addresses stays is the model's, log entry 5. -/
def Obligations.GetUeDecodesTheStream : Prop :=
  ∀ (s : State) (bits : List Bool) (i : Nat), s.ctx.Inv → bits = s.ctx.deliverable s.readerMem → i = leadingZeros bits →
    (i = bits.length →
      exec .getUe s = .next { s with responses := s.responses ++ [⟨.insufficientData, 0#35⟩] }) ∧
    (i < bits.length → 32 < i →
      exec .getUe s = .next { s with responses := s.responses ++ [⟨.codeOverflow, 0#35⟩] }) ∧
    (i < bits.length → i ≤ 32 → bits.length < 2 * i + 1 →
      exec .getUe s = .next { s with responses := s.responses ++ [⟨.insufficientData, 0#35⟩] }) ∧
    (i ≤ 32 → 2 * i + 1 ≤ bits.length →
      ∃ t, exec .getUe s = .next t ∧
        t.responses = s.responses ++
          [⟨.ok, BitVec.ofNat 35 ((2 ^ i - 1 + bitsToNat ((bits.drop (i + 1)).take i)) % 2 ^ 32)⟩] ∧
        t.ctx.deliverable s.readerMem = bits.drop (2 * i + 1) ∧ t.ctx.Inv ∧ t.ctx.dataBase = s.ctx.dataBase ∧
        t.ctx.size = s.ctx.size ∧ t.mem = s.mem ∧ t.rewritten = s.rewritten ∧ t.commands = s.commands)

/-- R170, "Registers written", with R59 (the buffer is unchanged): on OK, GET_UE leaves the registers that discarding the zeros, the `1` and the remainder
by SKIP leaves: those of SKIP 1 for no zeros, else those of SKIP `i`, SKIP 1, SKIP `i`. -/
def Obligations.GetUeLeavesWhatSkipsLeave : Prop :=
  ∀ (s t : State) (i : Nat), s.ctx.Inv → s.rewritten = [] → i = leadingZeros (s.ctx.deliverable s.mem) → i ≤ 32 →
    2 * i + 1 ≤ (s.ctx.deliverable s.mem).length → exec .getUe s = .next t →
    (i = 0 → ∃ a, exec (.skip 1#6) s = .next a ∧ t.ctx = a.ctx) ∧
    (1 ≤ i → ∃ a b c, exec (.skip (BitVec.ofNat 6 i)) s = .next a ∧ exec (.skip 1#6) a = .next b ∧
      exec (.skip (BitVec.ofNat 6 i)) b = .next c ∧ t.ctx = c.ctx)

/-- R172, R173: GET_SE fails where GET_UE fails, with the same status; where GET_UE answers `k`, it answers the low 32
bits of the zig-zag image of `k`, with `value[34:32]` zero, and leaves the same registers. That
the record of rewritten addresses stays is the model's, log entry 5. -/
def Obligations.GetSeMapsTheCode : Prop :=
  ∀ (s : State) (bits : List Bool) (i k : Nat) (v : Int), s.ctx.Inv → bits = s.ctx.deliverable s.readerMem →
    i = leadingZeros bits → k = (2 ^ i - 1 + bitsToNat ((bits.drop (i + 1)).take i)) % 2 ^ 32 →
    (k % 2 = 1 → 2 * v = (k : Int) + 1) → (k % 2 = 0 → 2 * v = -(k : Int)) →
    (i = bits.length →
      exec .getSe s = .next { s with responses := s.responses ++ [⟨.insufficientData, 0#35⟩] }) ∧
    (i < bits.length → 32 < i →
      exec .getSe s = .next { s with responses := s.responses ++ [⟨.codeOverflow, 0#35⟩] }) ∧
    (i < bits.length → i ≤ 32 → bits.length < 2 * i + 1 →
      exec .getSe s = .next { s with responses := s.responses ++ [⟨.insufficientData, 0#35⟩] }) ∧
    (i ≤ 32 → 2 * i + 1 ≤ bits.length →
      ∃ t u, exec .getSe s = .next t ∧ exec .getUe s = .next u ∧ t.ctx = u.ctx ∧
        t.responses = s.responses ++ [⟨.ok, BitVec.ofNat 35 (v % 2 ^ 32).toNat⟩] ∧
        t.mem = s.mem ∧ t.rewritten = s.rewritten ∧ t.commands = s.commands)

/-- R95, R170: a reader in front of the code of `k`, for any `k` up to `2^32 - 2`, answers `k` and stands behind it. -/
def Obligations.UnsignedCodesRoundTrip : Prop :=
  ∀ (s : State) (k : Nat) (rest : List Bool), s.ctx.Inv → k ≤ 2 ^ 32 - 2 → s.ctx.deliverable s.readerMem = ueBits k ++ rest →
    ∃ t, exec .getUe s = .next t ∧ t.responses = s.responses ++ [⟨.ok, BitVec.ofNat 35 k⟩] ∧
      t.ctx.deliverable s.readerMem = rest

/-- R172: a reader in front of the code of a signed number, from `-(2^31 - 1)` to `2^31 - 1`, answers its 32-bit two's
complement and stands behind the code. -/
def Obligations.SignedCodesRoundTrip : Prop :=
  ∀ (s : State) (v : Int) (rest : List Bool), s.ctx.Inv → -(2 ^ 31 - 1) ≤ v → v ≤ 2 ^ 31 - 1 →
    s.ctx.deliverable s.readerMem = ueBits (zigZagCode v) ++ rest →
    ∃ t, exec .getSe s = .next t ∧ t.responses = s.responses ++ [⟨.ok, (BitVec.ofInt 32 v).setWidth 35⟩] ∧
      t.ctx.deliverable s.readerMem = rest

/-! ### Stream utilities -/

/-- R190, R191, R195: IS_BYTE_ALIGNED and GET_EPB_COUNT in every state; they write no register. -/
def Obligations.AlignmentAndEpbQueries : Prop :=
  ∀ s : State,
    exec .isByteAligned s = .next
      { s with responses := s.responses ++ [⟨.ok, if s.ctx.bitsInCache.toNat = 0 then 1#35 else 0#35⟩] } ∧
    exec .getEpbCount s = .next
      { s with responses := s.responses ++ [⟨.ok, BitVec.ofNat 35 s.ctx.epbCount.toNat⟩] }

/-- R193, R194, R190: the two position queries at rest: exact, without loss in 35 bits, and no register written. -/
def Obligations.PositionQueriesAreExact : Prop :=
  ∀ s : State, s.ctx.Inv →
    ∃ p r : Value,
      exec .getPositionBits s = .next { s with responses := s.responses ++ [⟨.ok, p⟩] } ∧
      exec .getRemainingBits s = .next { s with responses := s.responses ++ [⟨.ok, r⟩] } ∧
      p.toNat + s.ctx.bitsInCache.toNat = 8 * s.ctx.bytePos.toNat ∧
      r.toNat = 8 * (s.ctx.size.toNat - s.ctx.bytePos.toNat) + s.ctx.bitsInCache.toNat ∧
      p.toNat + r.toNat = 8 * s.ctx.size.toNat

/-- R191: at rest IS_BYTE_ALIGNED answers true exactly where GET_POSITION_BITS answers a multiple of 8. -/
def Obligations.AlignedIffPositionIsWholeBytes : Prop :=
  ∀ (s t u : State) (p q : Value), s.ctx.Inv →
    exec .isByteAligned s = .next t → t.responses = s.responses ++ [⟨.ok, p⟩] →
    exec .getPositionBits s = .next u → u.responses = s.responses ++ [⟨.ok, q⟩] →
    (p = 1#35 ↔ q.toNat % 8 = 0)

/-- R196, R197: HAS_MORE_RBSP_DATA at rest, with `r` the bits of R194: false for none, true for more than 8; otherwise
false where no bit can be delivered or where the bits left are a `1` and then zeros only, and true elsewhere. -/
def Obligations.HasMoreSeesTrailingBits : Prop :=
  ∀ (s : State) (bits : List Bool) (r : Nat), s.ctx.Inv → bits = s.ctx.deliverable s.readerMem →
    r = 8 * (s.ctx.size.toNat - s.ctx.bytePos.toNat) + s.ctx.bitsInCache.toNat →
    ((r = 0 ∨ (r ≤ 8 ∧ (bits = [] ∨ bits = true :: List.replicate (r - 1) false))) →
      exec .hasMoreRbspData s = .next { s with responses := s.responses ++ [⟨.ok, 0#35⟩] }) ∧
    ((8 < r ∨ (0 < r ∧ bits ≠ [] ∧ bits ≠ true :: List.replicate (r - 1) false)) →
      exec .hasMoreRbspData s = .next { s with responses := s.responses ++ [⟨.ok, 1#35⟩] })

/-- R198, R199: SCAN_FOR_START_CODES answers the least offset with a start code inside the buffer, NOT_FOUND where
there is none, and touches no register. -/
def Obligations.ScanFindsTheFirstStartCode : Prop :=
  ∀ (base : Address) (size : Word) (s : State) (found : Nat → Prop),
    (∀ p, found p ↔ p + 3 ≤ size.toNat ∧ s.mem.read (base + BitVec.ofNat 32 p) = 0x00#8 ∧
      s.mem.read (base + BitVec.ofNat 32 (p + 1)) = 0x00#8 ∧ s.mem.read (base + BitVec.ofNat 32 (p + 2)) = 0x01#8) →
    (∀ p, found p → (∀ q, q < p → ¬ found q) →
      exec (.scanForStartCodes base size) s = .next
        { s with responses := s.responses ++ [⟨.ok, BitVec.ofNat 35 p⟩] }) ∧
    ((∀ p, ¬ found p) →
      exec (.scanForStartCodes base size) s = .next { s with responses := s.responses ++ [⟨.notFound, 0#35⟩] })

/-! ### Ceiling log2 -/

/-- R110, R111: CEIL_LOG2 answers the least `r` with `2^r >= v`, at most 32, for every `v >= 1`; for 0 it answers
ERR_ILLEGAL. -/
def Obligations.CeilLog2IsTheLeastPower : Prop :=
  ∀ (v : Word) (s : State),
    (1 ≤ v.toNat → ∃ r : Nat, r ≤ 32 ∧ v.toNat ≤ 2 ^ r ∧ (∀ q, q < r → 2 ^ q < v.toNat) ∧
      exec (.ceilLog2 v) s = .next { s with responses := s.responses ++ [⟨.ok, BitVec.ofNat 35 r⟩] }) ∧
    (v = 0#32 → exec (.ceilLog2 v) s = .next { s with responses := s.responses ++ [⟨.illegal, 0#35⟩] })

/-! ### Frames -/

/-- The frame of the consuming commands SKIP, SKIP_TO_NEXT_BYTE, GET_BITS_*, GET_UE and GET_SE (R125, R127, R151 to
R153, R170, R172): `data_base`, `size`, the beats not yet issued and every byte of memory stay, and one response is
added. The registers they may write are `byte_pos`, `first_byte`, `cache`, `bits_in_cache` and `epb_count`;
SKIP_TO_NEXT_BYTE writes only `byte_pos` and `bits_in_cache`. -/
def Obligations.ConsumingCommandsFrame : Prop :=
  ∀ (n : BitCount) (s t : State), ∀ i ∈ [Instr.skip n, .skipToNextByte, .getBitsUint8 n, .getBitsUint16 n,
      .getBitsUint32 n, .getUe, .getSe],
    exec i s = .next t →
    t.ctx.dataBase = s.ctx.dataBase ∧ t.ctx.size = s.ctx.size ∧ t.commands = s.commands ∧ t.rewritten = s.rewritten ∧
    (∃ r, t.responses = s.responses ++ [r]) ∧ (∀ a : Address, t.mem.read a = s.mem.read a) ∧
    (i = .skipToNextByte → t.ctx.firstByte = s.ctx.firstByte ∧ t.ctx.cache = s.ctx.cache ∧
      t.ctx.epbCount = s.ctx.epbCount)

/-- R154, R190, R196, R198, R110: the peeks, the queries, the scan and CEIL_LOG2 change nothing but the response. -/
def Obligations.LookingCommandsFrame : Prop :=
  ∀ (n : BitCount) (base : Address) (x : Word) (s t : State), ∀ i ∈ [Instr.peekBitsUint8 n, .peekBitsUint16 n,
      .peekBitsUint32 n, .isByteAligned, .getPositionBits, .getRemainingBits, .getEpbCount, .hasMoreRbspData,
      .scanForStartCodes base x, .ceilLog2 x],
    exec i s = .next t →
    t.ctx = s.ctx ∧ t.mem = s.mem ∧ t.commands = s.commands ∧ t.rewritten = s.rewritten ∧ ∃ r, t.responses = s.responses ++ [r]

/-! ### What cannot be seen -/

/-- R53: a byte outside the reader's buffer (outside the scanned buffer for a scan) cannot be seen: a store there by the
host changes no response and no register of any command. -/
def Obligations.BytesOutsideTheBufferAreUnseen : Prop :=
  ∀ (i : Instr) (s u : State) (a : Address) (b : Byte), s.mem.wf = true → s.ctx.size.toNat ≤ (a - s.ctx.dataBase).toNat →
    (∀ base size, i = .scanForStartCodes base size → size.toNat ≤ (a - base).toNat) → exec i s = .next u →
    exec i (s.hostStore a b) = .next { u with mem := (s.hostStore a b).mem }

/-- R61, R59: the host's store changes that byte alone and keeps the canonical form of memory; outside the live buffer
nothing else changes, and inside it the address is recorded as rewritten (the model's choice, log entry 5). -/
def Obligations.HostStoreChangesOneByte : Prop :=
  ∀ (s : State) (a : Address) (b : Byte), s.Inv →
    (s.hostStore a b).Inv ∧ (s.hostStore a b).mem.read a = b ∧
    (∀ x, x ≠ a → (s.hostStore a b).mem.read x = s.mem.read x) ∧ (s.hostStore a b).ctx = s.ctx ∧
    (s.hostStore a b).commands = s.commands ∧ (s.hostStore a b).responses = s.responses ∧
    (s.ctx.size.toNat ≤ (a - s.ctx.dataBase).toNat → (s.hostStore a b).rewritten = s.rewritten) ∧
    ((a - s.ctx.dataBase).toNat < s.ctx.size.toNat →
      ∀ x, x ∈ (s.hostStore a b).rewritten ↔ x = a ∨ x ∈ s.rewritten)

/-- R59, R61: an address the host did not rewrite since INIT is fetched as it is stored; after R252's new INIT that is
every address, also one that the host stored to in the old buffer. The record of rewritten addresses is the model's
choice, log entry 5. -/
def Obligations.ReaderSeesTheStoredBytes : Prop :=
  ∀ (s : State) (a : Address) (b : Byte) (base : Address) (size : Word), s.mem.wf = true →
    (∀ x, x ∉ s.rewritten → s.readerMem.read x = s.mem.read x) ∧
    ∃ t, exec (.init base size) (s.hostStore a b) = .next t ∧ t.readerMem.read a = b ∧
      ∀ x, x ≠ a → t.readerMem.read x = s.mem.read x

/-- The model's own record of rewritten addresses (the model's choice, log entry 5): INIT alone empties it, and no other
command changes it or moves the live buffer. It agrees with R59, R60 and R252, which speak of no record. -/
def Obligations.OnlyInitEndsABufferUse : Prop :=
  ∀ (i : Instr) (s t : State), exec i s = .next t →
    ((∃ base size, i = .init base size) → t.rewritten = []) ∧
    ((∀ base size, i ≠ .init base size) → t.rewritten = s.rewritten ∧
      ∀ a : Address, t.ctx.inBuffer a = s.ctx.inBuffer a)

/-- R25: what `cache` holds beyond the history cannot be seen: two readers at rest that differ there give the same
response to every command and still differ there alone. -/
def Obligations.CacheHistoryIsUnseen : Prop :=
  ∀ (i : Instr) (s t : State) (d : Context), s.ctx.Inv → s.ctx.SameButCache d → exec i s = .next t →
    ∃ e : Context, exec i { s with ctx := d } = .next { t with ctx := e } ∧ t.ctx.SameButCache e
end

