-- ==== Sys2Proof/Laws/PerInstr.lean ====
section
/-!
SUPPORT. The families of statements proved command by command (LAWS.json). `EncodeFields`: the fields of the encoded
`cmd` are the opcode of spec/30_encoding.md R87, the bit count, and zeros between them (R81).
-/

namespace Sys2Proof.Laws.EncodeFields

/-- The encoded `cmd` holds the opcode in bits 31:24, zeros in bits 23:6 and the bit count in bits 5:0 (R81). -/
def Statement (i : Instr) : Prop :=
  opcodeField (encode i).cmd = opcodeOf i ∧ (encode i).cmd.extractLsb' 6 18 = 0#18 ∧ countField (encode i).cmd = i.count

/-- The bits of a joined word. -/
theorem cmdWord_getLsbD (op : BitVec 8) (n : BitCount) (j : Nat) :
    (cmdWord op n).getLsbD j = if j < 6 then n.getLsbD j else if j < 24 then false else op.getLsbD (j - 24) := by
  have h : (cmdWord op n).getLsbD j = BitVec.getLsbD (w := 8 + 18 + 6) (op ++ 0#18 ++ n) j := rfl
  rw [h, BitVec.getLsbD_append, BitVec.getLsbD_append]
  by_cases h1 : j < 6
  · simp [h1]
  · by_cases h2 : j < 24
    · simp [h1, h2, show j - 6 < 18 by omega]
    · simp [h1, h2, show ¬ j - 6 < 18 by omega, show j - 6 - 18 = j - 24 by omega]

/-- The three fields of a joined word. -/
theorem cmdWord_fields (op : BitVec 8) (n : BitCount) :
    opcodeField (cmdWord op n) = op ∧ (cmdWord op n).extractLsb' 6 18 = 0#18 ∧ countField (cmdWord op n) = n := by
  refine ⟨?_, ?_, ?_⟩
  · ext k hk
    rw [opcodeField, BitVec.getElem_extractLsb', cmdWord_getLsbD, if_neg (by omega), if_neg (by omega),
      Nat.add_sub_cancel_left, BitVec.getLsbD_eq_getElem hk]
  · ext k hk
    rw [BitVec.getElem_extractLsb', cmdWord_getLsbD, if_neg (by omega), if_pos (by omega)]
    simp
  · ext k hk
    rw [countField, BitVec.getElem_extractLsb', cmdWord_getLsbD, if_pos (by omega), Nat.zero_add,
      BitVec.getLsbD_eq_getElem hk]

theorem init (base : Address) (size : Word) : Statement (.init base size) := cmdWord_fields _ _
theorem skip (n : BitCount) : Statement (.skip n) := cmdWord_fields _ _
theorem skipToNextByte : Statement .skipToNextByte := cmdWord_fields _ _
theorem getBitsUint8 (n : BitCount) : Statement (.getBitsUint8 n) := cmdWord_fields _ _
theorem getBitsUint16 (n : BitCount) : Statement (.getBitsUint16 n) := cmdWord_fields _ _
theorem getBitsUint32 (n : BitCount) : Statement (.getBitsUint32 n) := cmdWord_fields _ _
theorem peekBitsUint8 (n : BitCount) : Statement (.peekBitsUint8 n) := cmdWord_fields _ _
theorem peekBitsUint16 (n : BitCount) : Statement (.peekBitsUint16 n) := cmdWord_fields _ _
theorem peekBitsUint32 (n : BitCount) : Statement (.peekBitsUint32 n) := cmdWord_fields _ _
theorem getUe : Statement .getUe := cmdWord_fields _ _
theorem getSe : Statement .getSe := cmdWord_fields _ _
theorem isByteAligned : Statement .isByteAligned := cmdWord_fields _ _
theorem getPositionBits : Statement .getPositionBits := cmdWord_fields _ _
theorem getRemainingBits : Statement .getRemainingBits := cmdWord_fields _ _
theorem getEpbCount : Statement .getEpbCount := cmdWord_fields _ _
theorem hasMoreRbspData : Statement .hasMoreRbspData := cmdWord_fields _ _
theorem scanForStartCodes (base : Address) (size : Word) : Statement (.scanForStartCodes base size) :=
  cmdWord_fields _ _
theorem ceilLog2 (v : Word) : Statement (.ceilLog2 v) := cmdWord_fields _ _

end Sys2Proof.Laws.EncodeFields
end

