-- ==== Sys2Proof/Laws/Decode.lean ====
section
/-!
SUPPORT. The opcode map: no two rows overlap, what a decoded beat says of its `cmd`, and decoding from the selected
row.
-/

namespace Sys2Proof

/-- No word selects two rows of R87: any two rows differ in a bit that both masks cover. -/
theorem opcodeTable_pairwise :
    opcodeTable.Pairwise fun r q => r.pattern &&& (r.mask &&& q.mask) ≠ q.pattern &&& (r.mask &&& q.mask) := by
  decide

theorem decode_of_row {beat : CommandBeat} {row : OpcodeRow} (h : selectRow beat.cmd = .ok row) :
    decode beat = .ok (row.mnemonic.build beat) := by
  unfold decode; rw [h]

theorem decode_of_error {beat : CommandBeat} {e : DecodeError} (h : selectRow beat.cmd = .error e) :
    decode beat = .error e := by
  unfold decode; rw [h]

/-- A decoded beat comes from a row of the table that its `cmd` selects. -/
theorem decode_ok {beat : CommandBeat} {i : Instr} (h : decode beat = .ok i) :
    ∃ row ∈ opcodeTable, beat.cmd &&& row.mask = row.pattern ∧ i = row.mnemonic.build beat := by
  unfold decode at h
  split at h
  · rename_i row hr
    cases h
    unfold selectRow at hr
    split at hr
    · rename_i r hf
      cases hr
      have hs := List.find?_some hf
      exact ⟨row, List.mem_of_find?_eq_some hf, by simpa [OpcodeRow.selects] using hs, rfl⟩
    · split at hr <;> cases hr
  · cases h

/-! ### The row each opcode selects -/

theorem selectRow_init :
    selectRow (cmdWord 0x01#8 0#6) = .ok ⟨.init, .b, 0x01000000#32, 0xFFFFFFFF#32⟩ := by
  decide

theorem selectRow_skip : ∀ n : BitCount,
    selectRow (cmdWord 0x02#8 n) = .ok ⟨.skip, .n, 0x02000000#32, 0xFFFFFFC0#32⟩ := by
  decide

theorem selectRow_skipToNextByte :
    selectRow (cmdWord 0x03#8 0#6) = .ok ⟨.skipToNextByte, .z, 0x03000000#32, 0xFFFFFFFF#32⟩ := by
  decide

theorem selectRow_getBitsUint8 : ∀ n : BitCount,
    selectRow (cmdWord 0x08#8 n) = .ok ⟨.getBitsUint8, .n, 0x08000000#32, 0xFFFFFFC0#32⟩ := by
  decide

theorem selectRow_getBitsUint16 : ∀ n : BitCount,
    selectRow (cmdWord 0x09#8 n) = .ok ⟨.getBitsUint16, .n, 0x09000000#32, 0xFFFFFFC0#32⟩ := by
  decide

theorem selectRow_getBitsUint32 : ∀ n : BitCount,
    selectRow (cmdWord 0x0A#8 n) = .ok ⟨.getBitsUint32, .n, 0x0A000000#32, 0xFFFFFFC0#32⟩ := by
  decide

theorem selectRow_peekBitsUint8 : ∀ n : BitCount,
    selectRow (cmdWord 0x0C#8 n) = .ok ⟨.peekBitsUint8, .n, 0x0C000000#32, 0xFFFFFFC0#32⟩ := by
  decide

theorem selectRow_peekBitsUint16 : ∀ n : BitCount,
    selectRow (cmdWord 0x0D#8 n) = .ok ⟨.peekBitsUint16, .n, 0x0D000000#32, 0xFFFFFFC0#32⟩ := by
  decide

theorem selectRow_peekBitsUint32 : ∀ n : BitCount,
    selectRow (cmdWord 0x0E#8 n) = .ok ⟨.peekBitsUint32, .n, 0x0E000000#32, 0xFFFFFFC0#32⟩ := by
  decide

theorem selectRow_getUe :
    selectRow (cmdWord 0x10#8 0#6) = .ok ⟨.getUe, .z, 0x10000000#32, 0xFFFFFFFF#32⟩ := by
  decide

theorem selectRow_getSe :
    selectRow (cmdWord 0x11#8 0#6) = .ok ⟨.getSe, .z, 0x11000000#32, 0xFFFFFFFF#32⟩ := by
  decide

theorem selectRow_isByteAligned :
    selectRow (cmdWord 0x20#8 0#6) = .ok ⟨.isByteAligned, .z, 0x20000000#32, 0xFFFFFFFF#32⟩ := by
  decide

theorem selectRow_getPositionBits :
    selectRow (cmdWord 0x21#8 0#6) = .ok ⟨.getPositionBits, .z, 0x21000000#32, 0xFFFFFFFF#32⟩ := by
  decide

theorem selectRow_getRemainingBits :
    selectRow (cmdWord 0x22#8 0#6) = .ok ⟨.getRemainingBits, .z, 0x22000000#32, 0xFFFFFFFF#32⟩ := by
  decide

theorem selectRow_getEpbCount :
    selectRow (cmdWord 0x23#8 0#6) = .ok ⟨.getEpbCount, .z, 0x23000000#32, 0xFFFFFFFF#32⟩ := by
  decide

theorem selectRow_hasMoreRbspData :
    selectRow (cmdWord 0x24#8 0#6) = .ok ⟨.hasMoreRbspData, .z, 0x24000000#32, 0xFFFFFFFF#32⟩ := by
  decide

theorem selectRow_scanForStartCodes :
    selectRow (cmdWord 0x30#8 0#6) = .ok ⟨.scanForStartCodes, .b, 0x30000000#32, 0xFFFFFFFF#32⟩ := by
  decide

theorem selectRow_ceilLog2 :
    selectRow (cmdWord 0x31#8 0#6) = .ok ⟨.ceilLog2, .v, 0x31000000#32, 0xFFFFFFFF#32⟩ := by
  decide

/-! ### Words and fields -/

theorem encode_cmd (i : Instr) : (encode i).cmd = cmdWord (opcodeOf i) i.count := rfl

theorem encode_opa (i : Instr) : (encode i).opa = operandA i := rfl

theorem encode_opb (i : Instr) : (encode i).opb = operandB i := rfl

theorem countField_cmdWord (op : BitVec 8) (n : BitCount) : countField (cmdWord op n) = n :=
  (Laws.EncodeFields.cmdWord_fields op n).2.2

/-- An opcode followed by 24 zero bits is the word with bit count zero (R81, R82). -/
theorem append_zero24 (op : BitVec 8) : (op ++ 0#24 : Word) = cmdWord op 0#6 := by
  apply BitVec.eq_of_getLsbD_eq
  intro j _
  rw [Laws.EncodeFields.cmdWord_getLsbD]
  have h : BitVec.getLsbD (w := 32) (op ++ 0#24) j = BitVec.getLsbD (w := 8 + 24) (op ++ 0#24) j := rfl
  rw [h, BitVec.getLsbD_append]
  by_cases h1 : j < 6
  · simp [h1, show j < 24 by omega]
  · by_cases h2 : j < 24 <;> simp [h1, h2]

/-- A word that a format-N row selects is its opcode joined with its own bit count. -/
theorem cmdWord_of_masked {w : Word} {op : BitVec 8} (h : w &&& 0xFFFFFFC0#32 = cmdWord op 0#6) :
    cmdWord op (countField w) = w := by
  apply BitVec.eq_of_getLsbD_eq
  intro j hj
  have e : (w &&& 0xFFFFFFC0#32).getLsbD j = (cmdWord op 0#6).getLsbD j := by rw [h]
  rw [Laws.EncodeFields.cmdWord_getLsbD] at e ⊢
  rw [BitVec.getLsbD_and] at e
  by_cases h6 : j < 6
  · simp [h6, countField]
  · have hmask : ∀ j : Fin 32, 6 ≤ j.1 → (0xFFFFFFC0#32).getLsbD j.1 = true := by decide
    rw [hmask ⟨j, hj⟩ (by simpa using h6), Bool.and_true] at e
    rw [e]
    simp [h6]

end Sys2Proof
end

