-- ==== Sys2Proof/Laws/State.lean ====
section
/-!
SUPPORT. One lemma per field for every named update of the state and of the reader context, so that later proofs
rewrite with them and do not unfold a record update.
-/

namespace Sys2Proof.Machine

/-! ### `respond`, `fail`, `commit` -/

@[simp] theorem State.respond_ctx (s : State) (st : Status) (v : Value) : (s.respond st v).ctx = s.ctx := rfl
@[simp] theorem State.respond_mem (s : State) (st : Status) (v : Value) : (s.respond st v).mem = s.mem := rfl
@[simp] theorem State.respond_rewritten (s : State) (st : Status) (v : Value) :
    (s.respond st v).rewritten = s.rewritten := rfl
@[simp] theorem State.respond_commands (s : State) (st : Status) (v : Value) :
    (s.respond st v).commands = s.commands := rfl
@[simp] theorem State.respond_responses (s : State) (st : Status) (v : Value) :
    (s.respond st v).responses = s.responses ++ [⟨st, v⟩] := rfl

@[simp] theorem State.fail_ctx (s : State) (st : Status) : (s.fail st).ctx = s.ctx := rfl
@[simp] theorem State.fail_mem (s : State) (st : Status) : (s.fail st).mem = s.mem := rfl
@[simp] theorem State.fail_rewritten (s : State) (st : Status) : (s.fail st).rewritten = s.rewritten := rfl
@[simp] theorem State.fail_commands (s : State) (st : Status) : (s.fail st).commands = s.commands := rfl
@[simp] theorem State.fail_responses (s : State) (st : Status) :
    (s.fail st).responses = s.responses ++ [⟨st, 0#35⟩] := rfl

@[simp] theorem State.commit_ctx (s : State) (t : Context) (v : Value) : (s.commit t v).ctx = t := rfl
@[simp] theorem State.commit_mem (s : State) (t : Context) (v : Value) : (s.commit t v).mem = s.mem := rfl
@[simp] theorem State.commit_rewritten (s : State) (t : Context) (v : Value) :
    (s.commit t v).rewritten = s.rewritten := rfl
@[simp] theorem State.commit_commands (s : State) (t : Context) (v : Value) :
    (s.commit t v).commands = s.commands := rfl
@[simp] theorem State.commit_responses (s : State) (t : Context) (v : Value) :
    (s.commit t v).responses = s.responses ++ [⟨.ok, v⟩] := rfl

/-! ### The host's updates -/

@[simp] theorem State.withCommands_ctx (s : State) (l : List CommandBeat) : (s.withCommands l).ctx = s.ctx := rfl
@[simp] theorem State.withCommands_mem (s : State) (l : List CommandBeat) : (s.withCommands l).mem = s.mem := rfl
@[simp] theorem State.withCommands_rewritten (s : State) (l : List CommandBeat) :
    (s.withCommands l).rewritten = s.rewritten := rfl
@[simp] theorem State.withCommands_commands (s : State) (l : List CommandBeat) :
    (s.withCommands l).commands = l := rfl
@[simp] theorem State.withCommands_responses (s : State) (l : List CommandBeat) :
    (s.withCommands l).responses = s.responses := rfl

@[simp] theorem State.hardwareReset_ctx (s : State) : s.hardwareReset.ctx = Context.reset := rfl
@[simp] theorem State.hardwareReset_mem (s : State) : s.hardwareReset.mem = s.mem := rfl
@[simp] theorem State.hardwareReset_rewritten (s : State) : s.hardwareReset.rewritten = [] := rfl
@[simp] theorem State.hardwareReset_commands (s : State) : s.hardwareReset.commands = s.commands := rfl
@[simp] theorem State.hardwareReset_responses (s : State) : s.hardwareReset.responses = s.responses := rfl

@[simp] theorem State.issue_ctx (s : State) (b : CommandBeat) : (s.issue b).ctx = s.ctx := rfl
@[simp] theorem State.issue_mem (s : State) (b : CommandBeat) : (s.issue b).mem = s.mem := rfl
@[simp] theorem State.issue_rewritten (s : State) (b : CommandBeat) : (s.issue b).rewritten = s.rewritten := rfl
@[simp] theorem State.issue_commands (s : State) (b : CommandBeat) :
    (s.issue b).commands = s.commands ++ [b] := rfl
@[simp] theorem State.issue_responses (s : State) (b : CommandBeat) : (s.issue b).responses = s.responses := rfl

@[simp] theorem State.newUse_ctx (s : State) : s.newUse.ctx = s.ctx := rfl
@[simp] theorem State.newUse_mem (s : State) : s.newUse.mem = s.mem := rfl
@[simp] theorem State.newUse_rewritten (s : State) : s.newUse.rewritten = [] := rfl
@[simp] theorem State.newUse_commands (s : State) : s.newUse.commands = s.commands := rfl
@[simp] theorem State.newUse_responses (s : State) : s.newUse.responses = s.responses := rfl

@[simp] theorem State.hostStore_ctx (s : State) (a : Address) (b : Byte) : (s.hostStore a b).ctx = s.ctx := rfl
@[simp] theorem State.hostStore_mem (s : State) (a : Address) (b : Byte) :
    (s.hostStore a b).mem = Memory.store a.toNat b s.mem := rfl
@[simp] theorem State.hostStore_commands (s : State) (a : Address) (b : Byte) :
    (s.hostStore a b).commands = s.commands := rfl
@[simp] theorem State.hostStore_responses (s : State) (a : Address) (b : Byte) :
    (s.hostStore a b).responses = s.responses := rfl

/-- The addresses rewritten after a host's store: those before, and the stored one where it lies in the live buffer. -/
theorem State.mem_hostStore_rewritten {s : State} {a x : Address} {b : Byte} :
    x ∈ (s.hostStore a b).rewritten ↔ x ∈ s.rewritten ∨ (x = a ∧ s.ctx.inBuffer a = true) := by
  unfold State.hostStore
  by_cases h : s.ctx.inBuffer a = true <;> by_cases h' : a ∈ s.rewritten <;> simp [h, h'] <;> aesop

/-! ### `readerMem` -/

/-- While the host keeps R60, a reading command fetches from buffer memory as it stands. -/
@[simp] theorem State.readerMem_of_fixed {s : State} (h : s.rewritten = []) : s.readerMem = s.mem := by
  unfold State.readerMem; rw [h]; rfl

/-! ### `pushByte` -/

@[simp] theorem pushByte_dataBase (t : Context) (b : Byte) : (pushByte t b).dataBase = t.dataBase := rfl
@[simp] theorem pushByte_size (t : Context) (b : Byte) : (pushByte t b).size = t.size := rfl
@[simp] theorem pushByte_bytePos (t : Context) (b : Byte) : (pushByte t b).bytePos = t.bytePos := rfl
@[simp] theorem pushByte_firstByte (t : Context) (b : Byte) : (pushByte t b).firstByte = b := rfl
@[simp] theorem pushByte_cache (t : Context) (b : Byte) :
    (pushByte t b).cache = (t.cache <<< 8) ||| t.firstByte.setWidth 32 := rfl
@[simp] theorem pushByte_bitsInCache (t : Context) (b : Byte) :
    (pushByte t b).bitsInCache = t.bitsInCache + 8#6 := rfl
@[simp] theorem pushByte_epbCount (t : Context) (b : Byte) : (pushByte t b).epbCount = t.epbCount := rfl

/-! ### `initContext` -/

@[simp] theorem initContext_dataBase (a : Address) (n : Word) : (initContext a n).dataBase = a := rfl
@[simp] theorem initContext_size (a : Address) (n : Word) : (initContext a n).size = n := rfl
@[simp] theorem initContext_bytePos (a : Address) (n : Word) : (initContext a n).bytePos = 0#32 := rfl
@[simp] theorem initContext_firstByte (a : Address) (n : Word) : (initContext a n).firstByte = 0xFF#8 := rfl
@[simp] theorem initContext_cache (a : Address) (n : Word) : (initContext a n).cache = 0x000000FF#32 := rfl
@[simp] theorem initContext_bitsInCache (a : Address) (n : Word) : (initContext a n).bitsInCache = 0#6 := rfl
@[simp] theorem initContext_epbCount (a : Address) (n : Word) : (initContext a n).epbCount = 0#32 := rfl

end Sys2Proof.Machine
end

