-- ==== Sys2Proof/Laws/Refill.lean ====
section
/-!
SUPPORT. What fetching, pushing and refilling can do: one inversion lemma each, Refill's loop as spec/41_core.md R121
writes it, and the invariants Refill and GetBits keep.
-/

namespace Sys2Proof.Machine

/-! ### Fetching -/

theorem fetchByte_none {mem : Memory} {t : Context} :
    fetchByte mem t = none ↔ t.size.toNat ≤ t.bytePos.toNat := by
  unfold fetchByte; split <;> simp_all

theorem fetchByte_some {mem : Memory} {t t' : Context} {b : Byte} :
    fetchByte mem t = some (b, t') ↔
      t.bytePos.toNat < t.size.toNat ∧ b = mem.read (byteAddress t.dataBase t.bytePos.toNat) ∧
        t' = { t with bytePos := t.bytePos + 1#32 } := by
  unfold fetchByte
  split
  · simp; omega
  · simp only [Option.some.injEq, Prod.mk.injEq]
    constructor
    · rintro ⟨rfl, rfl⟩; exact ⟨by omega, rfl, rfl⟩
    · rintro ⟨-, rfl, rfl⟩; exact ⟨rfl, rfl⟩

/-- Inside the buffer the increment of `byte_pos` loses no bit. -/
theorem bytePos_succ {p size : Word} (h : p.toNat < size.toNat) : (p + 1#32).toNat = p.toNat + 1 := by
  have := size.isLt
  rw [BitVec.toNat_add]
  simp only [BitVec.toNat_ofNat]
  omega

/-! ### One iteration of Refill -/

/-- Everything one iteration can do: push the next byte, or drop it and push the one after it. -/
theorem pushNext_cases {mem : Memory} {t t' : Context} (h : pushNext mem t = some t') :
    (t.bytePos.toNat < t.size.toNat ∧
      isEpb t (mem.read (byteAddress t.dataBase t.bytePos.toNat)) = false ∧
      t' = pushByte { t with bytePos := t.bytePos + 1#32 }
        (mem.read (byteAddress t.dataBase t.bytePos.toNat))) ∨
    (t.bytePos.toNat + 1 < t.size.toNat ∧
      isEpb t (mem.read (byteAddress t.dataBase t.bytePos.toNat)) = true ∧
      t' = pushByte { t with bytePos := t.bytePos + 2#32, epbCount := t.epbCount + 1#32 }
        (mem.read (byteAddress t.dataBase (t.bytePos.toNat + 1)))) := by
  unfold pushNext at h
  split at h
  · cases h
  · rename_i b t1 h1
    obtain ⟨hlt, rfl, rfl⟩ := fetchByte_some.1 h1
    split at h
    · rename_i he
      split at h
      · cases h
      · rename_i b2 t2 h2
        obtain ⟨hlt2, rfl, rfl⟩ := fetchByte_some.1 h2
        simp only [bytePos_succ hlt] at hlt2 h
        refine .inr ⟨hlt2, he, ?_⟩
        rw [← Option.some.inj h]
        simp only [BitVec.add_assoc]
        rfl
    · rename_i he
      exact .inl ⟨hlt, by simpa using he, (Option.some.inj h).symm⟩

/-- One iteration fails exactly when no raw byte is left, or the only one left is dropped. -/
theorem pushNext_none {mem : Memory} {t : Context} (h : pushNext mem t = none) :
    t.size.toNat ≤ t.bytePos.toNat ∨
    (t.bytePos.toNat < t.size.toNat ∧ t.size.toNat ≤ t.bytePos.toNat + 1 ∧
      isEpb t (mem.read (byteAddress t.dataBase t.bytePos.toNat)) = true) := by
  unfold pushNext at h
  split at h
  · exact .inl (fetchByte_none.1 ‹_›)
  · rename_i b t1 h1
    obtain ⟨hlt, rfl, rfl⟩ := fetchByte_some.1 h1
    split at h
    · rename_i he
      split at h
      · have h2 := fetchByte_none.1 ‹_›
        simp only [bytePos_succ hlt] at h2
        exact .inr ⟨hlt, h2, he⟩
      · cases h
    · cases h

/-- What one iteration leaves: the buffer stays, eight more bits are valid, one raw byte is consumed, or two with one
counted drop. -/
theorem pushNext_spec {mem : Memory} {t t' : Context} (h : pushNext mem t = some t') :
    t'.dataBase = t.dataBase ∧ t'.size = t.size ∧ t'.bitsInCache = t.bitsInCache + 8#6 ∧
    t'.bytePos.toNat ≤ t.size.toNat ∧
    ((t'.bytePos.toNat = t.bytePos.toNat + 1 ∧ t'.epbCount = t.epbCount) ∨
      (t'.bytePos.toNat = t.bytePos.toNat + 2 ∧ t'.epbCount = t.epbCount + 1#32)) := by
  have hs := t.size.isLt
  rcases pushNext_cases h with ⟨hlt, -, rfl⟩ | ⟨hlt, -, rfl⟩
  · simp [bytePos_succ hlt]; omega
  · have h2 : (t.bytePos + 2#32).toNat = t.bytePos.toNat + 2 := by
      rw [BitVec.toNat_add]; simp only [BitVec.toNat_ofNat]; omega
    simp [h2]; omega

/-- Adding eight valid bits loses nothing while fewer than 32 are valid. -/
theorem bits_push {b : BitCount} (h : b.toNat < 32) : (b + 8#6).toNat = b.toNat + 8 := by
  rw [BitVec.toNat_add]
  simp only [BitVec.toNat_ofNat]
  omega

/-! ### Refill -/

/-- Any two amounts of fuel that cover the missing bits give the same result. -/
theorem refillLoop_fuel {mem : Memory} {n : Nat} (hn : n ≤ 32) (f f' : Nat) (t : Context)
    (hf : n ≤ t.bitsInCache.toNat + f) (hf' : n ≤ t.bitsInCache.toNat + f') :
    refillLoop mem n f t = refillLoop mem n f' t := by
  induction f generalizing t f' with
  | zero =>
    cases f' with
    | zero => rfl
    | succ g => unfold refillLoop; rw [if_neg (by omega)]
  | succ f ih =>
    cases f' with
    | zero => unfold refillLoop; rw [if_neg (by omega)]
    | succ g =>
      unfold refillLoop
      split
      · split
        · rfl
        · rename_i h1 _ t' h2
          have hb := bits_push (b := t.bitsInCache) (by omega)
          rw [← (pushNext_spec h2).2.2.1] at hb
          exact ih g t' (by omega) (by omega)
      · rfl

/-- Refill is the loop of R121: while fewer than `n` bits are valid, one more iteration. -/
theorem refill_unfold {mem : Memory} {t : Context} {n : Nat} (hn : n ≤ 32) :
    refill mem t n =
      if t.bitsInCache.toNat < n then
        match pushNext mem t with
        | none => none
        | some t' => refill mem t' n
      else some t := by
  unfold refill
  split
  · rename_i h
    obtain ⟨m, rfl⟩ : ∃ m, n = m + 1 := ⟨n - 1, by omega⟩
    conv_lhs => unfold refillLoop
    rw [if_pos h]
    cases hp : pushNext mem t with
    | none => rfl
    | some t' =>
      have hb := bits_push (b := t.bitsInCache) (by omega)
      rw [← (pushNext_spec hp).2.2.1] at hb
      exact refillLoop_fuel hn m (m + 1) t' (by omega) (by omega)
  · rename_i h
    cases n with
    | zero => rfl
    | succ m => unfold refillLoop; rw [if_neg h]

/-- The induction principle of Refill: a fact of every copy that has enough bits, carried backwards over an iteration,
holds of every refill that answers a copy. -/
theorem refill_induct {mem : Memory} {n : Nat} (hn : n ≤ 32) {motive : Context → Context → Prop}
    (done : ∀ t, n ≤ t.bitsInCache.toNat → motive t t)
    (more : ∀ t u t', t.bitsInCache.toNat < n → pushNext mem t = some u → refill mem u n = some t' →
      motive u t' → motive t t') {t t' : Context} (h : refill mem t n = some t') : motive t t' := by
  induction hk : n - t.bitsInCache.toNat using Nat.strong_induction_on generalizing t with
  | _ k ih =>
    rw [refill_unfold hn] at h
    split at h
    · split at h
      · cases h
      · rename_i hlt _ u hu
        have hb := bits_push (b := t.bitsInCache) (by omega)
        rw [← (pushNext_spec hu).2.2.1] at hb
        exact more t u t' hlt hu h (ih _ (by omega) h rfl)
    · cases h
      exact done _ (by omega)

/-- What a refill leaves: the buffer stays, at least `n` bits are valid and fewer than `n + 8` (or as many as before),
and the raw bytes consumed are the pushed bytes and the counted drops. -/
theorem refill_spec {mem : Memory} {t t' : Context} {n : Nat} (hn : n ≤ 32) (h : refill mem t n = some t') :
    t'.dataBase = t.dataBase ∧ t'.size = t.size ∧ n ≤ t'.bitsInCache.toNat ∧
    t'.bitsInCache.toNat ≤ max t.bitsInCache.toNat (n + 7) ∧ t.bytePos.toNat ≤ t'.bytePos.toNat ∧
    (t.bytePos.toNat ≤ t.size.toNat → t'.bytePos.toNat ≤ t.size.toNat) ∧
    t.bitsInCache.toNat ≤ t'.bitsInCache.toNat ∧
    (t.epbCount.toNat ≤ t.bytePos.toNat →
      8 * (t'.bytePos.toNat - t.bytePos.toNat) =
        (t'.bitsInCache.toNat - t.bitsInCache.toNat) + 8 * (t'.epbCount.toNat - t.epbCount.toNat) ∧
      t.epbCount.toNat ≤ t'.epbCount.toNat ∧ t'.epbCount.toNat ≤ t'.bytePos.toNat) := by
  refine refill_induct hn (motive := fun t t' => t'.dataBase = t.dataBase ∧ t'.size = t.size ∧
    n ≤ t'.bitsInCache.toNat ∧ t'.bitsInCache.toNat ≤ max t.bitsInCache.toNat (n + 7) ∧
    t.bytePos.toNat ≤ t'.bytePos.toNat ∧ (t.bytePos.toNat ≤ t.size.toNat → t'.bytePos.toNat ≤ t.size.toNat) ∧
    t.bitsInCache.toNat ≤ t'.bitsInCache.toNat ∧
    (t.epbCount.toNat ≤ t.bytePos.toNat →
      8 * (t'.bytePos.toNat - t.bytePos.toNat) =
        (t'.bitsInCache.toNat - t.bitsInCache.toNat) + 8 * (t'.epbCount.toNat - t.epbCount.toNat) ∧
      t.epbCount.toNat ≤ t'.epbCount.toNat ∧ t'.epbCount.toNat ≤ t'.bytePos.toNat)) ?_ ?_ h
  · intro t hb
    refine ⟨rfl, rfl, hb, by omega, by omega, by omega, by omega, fun _ => by omega⟩
  · intro t u t' hlt hu _ ih
    have hs := t.size.isLt
    obtain ⟨hd, hsz, hbits, hpos, hcase⟩ := pushNext_spec hu
    have hb := bits_push (b := t.bitsInCache) (by omega)
    rw [← hbits] at hb
    rw [hd, hsz] at ih
    obtain ⟨h1, h2, h3, h4, h5, h6, h7, h8⟩ := ih
    refine ⟨h1, h2, h3, by omega, by omega, fun _ => h6 hpos, by omega, fun he => ?_⟩
    rcases hcase with ⟨hp, hep⟩ | ⟨hp, hep⟩
    · rw [hep] at h8
      have := h8 (by omega)
      omega
    · have hin : (t.epbCount + 1#32).toNat = t.epbCount.toNat + 1 := by
        rw [BitVec.toNat_add]; simp only [BitVec.toNat_ofNat]; omega
      rw [hep, hin] at h8
      have := h8 (by omega)
      omega

/-- A refill from a copy at rest holds at most 39 valid bits (R30). -/
theorem refill_bits_le {mem : Memory} {t t' : Context} {n : Nat} (hn : n ≤ 32) (ht : t.bitsInCache.toNat ≤ 7)
    (h : refill mem t n = some t') : t'.bitsInCache.toNat ≤ n + 7 := by
  have := (refill_spec hn h).2.2.2.1
  omega

/-! ### GetBits -/

/-- Everything GetBits can do when it answers. -/
theorem getBits_some {mem : Memory} {t t' : Context} {n v : Nat} (h : getBits mem t n = some (v, t')) :
    ∃ u, refill mem t n = some u ∧
      v = (u.window.toNat >>> (u.bitsInCache.toNat - n)) &&& (2 ^ n - 1) ∧
      t' = { u with bitsInCache := BitVec.ofNat 6 (u.bitsInCache.toNat - n) } := by
  unfold getBits at h
  split at h
  · cases h
  · rename_i u hu
    simp only [Option.some.injEq, Prod.mk.injEq] at h
    exact ⟨u, hu, h.1.symm, h.2.symm⟩

theorem getBits_none {mem : Memory} {t : Context} {n : Nat} : getBits mem t n = none ↔ refill mem t n = none := by
  unfold getBits; split <;> simp_all

/-- The value of `n` bits is below `2^n` (R151). -/
theorem getBits_lt {mem : Memory} {t t' : Context} {n v : Nat} (h : getBits mem t n = some (v, t')) : v < 2 ^ n := by
  obtain ⟨u, -, rfl, -⟩ := getBits_some h
  rw [Nat.and_two_pow_sub_one_eq_mod]
  exact Nat.mod_lt _ (Nat.two_pow_pos n)

/-- The new count loses no bit when it is narrowed to the register. -/
theorem bits_ofNat {b : BitCount} (n : Nat) : (BitVec.ofNat 6 (b.toNat - n)).toNat = b.toNat - n := by
  have := b.isLt
  rw [BitVec.toNat_ofNat]
  omega

/-- GetBits on registers at rest leaves registers at rest, in the same buffer. -/
theorem getBits_inv {mem : Memory} {t t' : Context} {n v : Nat} (hn : n ≤ 32) (ht : t.Inv)
    (h : getBits mem t n = some (v, t')) : t'.Inv ∧ t'.dataBase = t.dataBase ∧ t'.size = t.size := by
  obtain ⟨u, hu, -, rfl⟩ := getBits_some h
  obtain ⟨i1, i2, i3, i4⟩ := ht
  obtain ⟨h1, h2, h3, h4, h5, h6, h7, h8⟩ := refill_spec hn hu
  have h8' := h8 i4
  have h6' := h6 i2
  refine ⟨⟨?_, ?_, ?_, ?_⟩, h1, h2⟩
  · simp only [bits_ofNat]; omega
  · simp only [h2]; exact h6'
  · simp only [bits_ofNat]; omega
  · exact h8'.2.2

end Sys2Proof.Machine
end

