-- ==== Sys2Proof/Laws/Stream.lean ====
section
/-!
SUPPORT. Refill and GetBits against the bit string the reader can still deliver: an iteration moves one byte of it into
the window, a refill succeeds exactly when enough of it is there (spec/41_core.md R126), and GetBits takes its first
`n` bits (spec/20_memory.md R54, spec/42_fixed_width.md R150).
-/

namespace Sys2Proof.Machine

/-! ### The raw bytes left -/

theorem rawRest_cons {mem : Memory} {t : Context} (h : t.bytePos.toNat < t.size.toNat) :
    t.rawRest mem = mem.read (byteAddress t.dataBase t.bytePos.toNat) ::
      rawFrom mem t.dataBase (t.bytePos.toNat + 1) (t.size.toNat - (t.bytePos.toNat + 1)) := by
  unfold Context.rawRest
  obtain ⟨k, hk⟩ : ∃ k, t.size.toNat - t.bytePos.toNat = k + 1 := ⟨t.size.toNat - t.bytePos.toNat - 1, by omega⟩
  rw [hk, rawFrom, show t.size.toNat - (t.bytePos.toNat + 1) = k by omega]

theorem rawRest_nil {mem : Memory} {t : Context} (h : t.size.toNat ≤ t.bytePos.toNat) : t.rawRest mem = [] := by
  unfold Context.rawRest
  rw [Nat.sub_eq_zero_of_le h]
  rfl

/-- The stripper's choice for the next byte is the register test of R122. -/
theorem strip_cons_false (t : Context) (x : Byte) (rest : List Byte) :
    strip (t.cache.extractLsb' 0 8) t.firstByte false (x :: rest) =
      if isEpb t x then strip (t.cache.extractLsb' 0 8) t.firstByte true rest
      else x :: strip t.firstByte x false rest := by
  rw [strip]
  simp only [isEpb, Config.epbByte, Bool.not_false, Bool.true_and]
  rfl

theorem strip_cons_true (a b x : Byte) (rest : List Byte) :
    strip a b true (x :: rest) = x :: strip b x false rest := by
  simp [strip]

/-- The low byte of the cache after a push is the byte that was held back. -/
theorem pushByte_cache_low (t : Context) (b : Byte) : (pushByte t b).cache.extractLsb' 0 8 = t.firstByte := by
  ext i hi
  simp [hi]
  omega

/-! ### The valid bits of the window -/

theorem windowBits_length (t : Context) : t.windowBits.length = t.bitsInCache.toNat := by
  simp [Context.windowBits]

theorem byteBits_length (x : Byte) : (byteBits x).length = 8 := by simp [byteBits]

/-- A push puts the byte's bits behind the valid bits. -/
theorem windowBits_push {t : Context} (b : Byte) (h : t.bitsInCache.toNat < 32) :
    (pushByte t b).windowBits = t.windowBits ++ byteBits b := by
  have hb : (pushByte t b).bitsInCache.toNat = t.bitsInCache.toNat + 8 := bits_push h
  apply List.ext_getElem
  · rw [List.length_append, windowBits_length, windowBits_length, byteBits_length, hb]
  · intro k h1 h2
    rw [windowBits_length, hb] at h1
    by_cases hk : k < t.bitsInCache.toNat
    · rw [List.getElem_append_left (by rw [windowBits_length]; exact hk)]
      simp only [Context.windowBits, List.getElem_map, List.getElem_range, hb, Context.window, BitVec.getLsbD_append,
        pushByte_firstByte, pushByte_cache, BitVec.getLsbD_or, BitVec.getLsbD_shiftLeft, BitVec.getLsbD_setWidth]
      generalize hj : t.bitsInCache.toNat - 1 - k = j
      have e : t.bitsInCache.toNat + 8 - 1 - k = j + 8 := by omega
      rw [e]
      rcases Nat.lt_or_ge j 8 with hlt | hge
      · simp [hlt]
        omega
      · have hf : t.firstByte.getLsbD j = false := BitVec.getLsbD_of_ge _ _ hge
        simp [show ¬ j < 8 by omega, show j < 32 by omega, hf]
    · rw [List.getElem_append_right (by rw [windowBits_length]; omega)]
      simp only [Context.windowBits, byteBits, List.getElem_map, List.getElem_range, List.length_map, List.length_range,
        hb, Context.window, BitVec.getLsbD_append, pushByte_firstByte]
      have e : t.bitsInCache.toNat + 8 - 1 - k = 7 - (k - t.bitsInCache.toNat) := by omega
      rw [e, if_pos (by omega)]

/-! ### The deliverable bits -/

/-- What can be delivered after a push: the valid bits, the byte, then the rest run from the new history. -/
theorem pushByte_deliverable {mem : Memory} {t : Context} (b : Byte) (hb : t.bitsInCache.toNat < 32) :
    (pushByte t b).deliverable mem =
      t.windowBits ++ (byteBits b ++ (strip t.firstByte b false (t.rawRest mem)).flatMap byteBits) := by
  unfold Context.deliverable
  rw [windowBits_push b hb, pushByte_cache_low, List.append_assoc]
  rfl

/-- An iteration of Refill keeps the deliverable bits. -/
theorem pushNext_deliverable {mem : Memory} {t t' : Context} (hb : t.bitsInCache.toNat < 32)
    (h : pushNext mem t = some t') : t'.deliverable mem = t.deliverable mem := by
  have hs := t.size.isLt
  rcases pushNext_cases h with ⟨hlt, he, rfl⟩ | ⟨hlt, he, rfl⟩
  · rw [pushByte_deliverable _ (by exact hb), Context.deliverable, rawRest_cons hlt, strip_cons_false, he]
    simp only [Bool.false_eq_true, if_false, List.flatMap_cons]
    unfold Context.rawRest
    simp only [bytePos_succ hlt]
    rfl
  · have h2 : (t.bytePos + 2#32).toNat = t.bytePos.toNat + 2 := by
      rw [BitVec.toNat_add]; simp only [BitVec.toNat_ofNat]; omega
    obtain ⟨k, hk⟩ : ∃ k, t.size.toNat - (t.bytePos.toNat + 1) = k + 1 :=
      ⟨t.size.toNat - (t.bytePos.toNat + 1) - 1, by omega⟩
    rw [pushByte_deliverable _ (by exact hb), Context.deliverable, rawRest_cons (t := t) (by omega), strip_cons_false, he,
      if_pos rfl, hk, rawFrom, strip_cons_true]
    simp only [List.flatMap_cons]
    unfold Context.rawRest
    simp only [h2, show t.size.toNat - (t.bytePos.toNat + 2) = k by omega]
    rfl

/-- Where an iteration of Refill fails, nothing beyond the window can be delivered. -/
theorem pushNext_none_deliverable {mem : Memory} {t : Context} (h : pushNext mem t = none) :
    t.deliverable mem = t.windowBits := by
  unfold Context.deliverable
  rcases pushNext_none h with hge | ⟨hlt, hge, he⟩
  · simp [rawRest_nil hge, strip]
  · rw [rawRest_cons hlt, strip_cons_false, he, Nat.sub_eq_zero_of_le hge]
    simp [rawFrom, strip]

theorem windowBits_le_deliverable (mem : Memory) (t : Context) :
    t.bitsInCache.toNat ≤ (t.deliverable mem).length := by
  simp [Context.deliverable, windowBits_length]

/-- Refill answers a copy exactly when `n` bits can be delivered (R126). -/
theorem refill_isSome {mem : Memory} {t : Context} {n : Nat} (hn : n ≤ 32) :
    (refill mem t n).isSome = true ↔ n ≤ (t.deliverable mem).length := by
  induction hk : n - t.bitsInCache.toNat using Nat.strong_induction_on generalizing t with
  | _ k ih =>
    rw [refill_unfold hn]
    split
    · rename_i hlt
      cases hu : pushNext mem t with
      | none =>
        have := pushNext_none_deliverable hu
        simp only [this, windowBits_length]
        simp; omega
      | some u =>
        have hb := bits_push (b := t.bitsInCache) (by omega)
        rw [← (pushNext_spec hu).2.2.1] at hb
        simp only
        rw [ih _ (by omega) rfl, pushNext_deliverable (by omega) hu]
    · have := windowBits_le_deliverable mem t
      simp; omega

/-- A refill keeps the deliverable bits. -/
theorem refill_deliverable {mem : Memory} {t t' : Context} {n : Nat} (hn : n ≤ 32) (h : refill mem t n = some t') :
    t'.deliverable mem = t.deliverable mem := by
  refine refill_induct hn (motive := fun t t' => t'.deliverable mem = t.deliverable mem) ?_ ?_ h
  · intro t _; rfl
  · intro t u t' hlt hu _ ih
    rw [ih, pushNext_deliverable (by omega) hu]

/-! ### Bit strings as numbers -/

theorem bitsToNat_append (l r : List Bool) : bitsToNat (l ++ r) = bitsToNat l * 2 ^ r.length + bitsToNat r := by
  have key : ∀ (r : List Bool) (a : Nat),
      r.foldl (fun acc bit => 2 * acc + bit.toNat) a = a * 2 ^ r.length + bitsToNat r := by
    intro r
    induction r with
    | nil => intro a; simp [bitsToNat]
    | cons x xs ih =>
      intro a
      simp only [bitsToNat, List.foldl_cons, List.length_cons]
      rw [ih, ih (2 * 0 + x.toNat)]
      ring
  unfold bitsToNat
  rw [List.foldl_append]
  exact key r _

theorem bitsToNat_lt (l : List Bool) : bitsToNat l < 2 ^ l.length := by
  induction l using List.reverseRecOn with
  | nil => simp [bitsToNat]
  | append_singleton xs x ih =>
    rw [bitsToNat_append, List.length_append, List.length_singleton, pow_one, pow_succ 2 xs.length]
    have : bitsToNat [x] ≤ 1 := by cases x <;> simp [bitsToNat]
    omega

/-- The `n` bits from bit `p + n - 1` of a number down to bit `p`, read as a number. -/
theorem bitsToNat_testBit (w p : Nat) : ∀ n : Nat,
    bitsToNat ((List.range n).map fun k => w.testBit (p + n - 1 - k)) = (w >>> p) % 2 ^ n
  | 0 => by simp [bitsToNat, Nat.mod_one]
  | n + 1 => by
    rw [List.range_succ_eq_map, List.map_cons, List.map_map, ← List.singleton_append, bitsToNat_append]
    have h : ((fun k => w.testBit (p + (n + 1) - 1 - k)) ∘ Nat.succ) = fun k => w.testBit (p + n - 1 - k) := by
      funext k
      simp only [Function.comp]
      congr 1
      omega
    rw [h, bitsToNat_testBit w p n]
    have e : p + (n + 1) - 1 - 0 = p + n := by omega
    simp only [List.length_map, List.length_range, e]
    have hbit : bitsToNat [w.testBit (p + n)] = (w >>> p) / 2 ^ n % 2 := by
      rw [← Nat.testBit_shiftRight, Nat.testBit_eq_decide_div_mod_eq]
      rcases Nat.mod_two_eq_zero_or_one ((w >>> p) / 2 ^ n) with h0 | h0 <;> simp [bitsToNat, h0]
    rw [hbit, Nat.mod_pow_succ]
    ring

/-! ### GetBits -/

/-- GetBits answers exactly when `n` bits can be delivered (R126, R150). -/
theorem getBits_isSome {mem : Memory} {t : Context} {n : Nat} (hn : n ≤ 32) :
    (getBits mem t n).isSome = true ↔ n ≤ (t.deliverable mem).length := by
  rw [← refill_isSome hn]
  cases h : refill mem t n with
  | none => simp [getBits_none.2 h]
  | some u => simp [getBits, h]

/-- What GetBits delivers (R54, R150): the next `n` bits of the deliverable string, first bit most significant, and the
copy that delivers the rest. -/
theorem getBits_deliverable {mem : Memory} {t t' : Context} {n v : Nat} (hn : n ≤ 32) (ht : t.bitsInCache.toNat ≤ 7)
    (h : getBits mem t n = some (v, t')) :
    v = bitsToNat ((t.deliverable mem).take n) ∧ t'.deliverable mem = (t.deliverable mem).drop n := by
  obtain ⟨u, hu, rfl, rfl⟩ := getBits_some h
  have hb := refill_bits_le hn ht hu
  have hge := (refill_spec hn hu).2.2.1
  have hd := refill_deliverable hn hu
  generalize hm : u.bitsInCache.toNat = m at *
  have htake : (t.deliverable mem).take n = u.windowBits.take n := by
    rw [← hd, Context.deliverable, List.take_append_of_le_length (by rw [windowBits_length]; omega)]
  have hdrop : (t.deliverable mem).drop n =
      u.windowBits.drop n ++ (strip (u.cache.extractLsb' 0 8) u.firstByte false (u.rawRest mem)).flatMap byteBits := by
    rw [← hd, Context.deliverable, List.drop_append_of_le_length (by rw [windowBits_length]; omega)]
  constructor
  · rw [htake, Nat.and_two_pow_sub_one_eq_mod, ← bitsToNat_testBit]
    congr 1
    apply List.ext_getElem
    · simp [windowBits_length]; omega
    · intro k h1 h2
      simp only [List.length_map, List.length_range] at h1
      simp only [Context.windowBits, List.getElem_map, List.getElem_range, List.getElem_take, hm]
      rw [BitVec.getLsbD]
      congr 1
      omega
  · rw [hdrop]
    unfold Context.deliverable
    congr 1
    apply List.ext_getElem
    · simp [windowBits_length, hm]; omega
    · intro k h1 h2
      rw [windowBits_length] at h1
      have e : (BitVec.ofNat 6 (m - n)).toNat = m - n := by rw [BitVec.toNat_ofNat]; omega
      simp only [e] at h1
      simp only [Context.windowBits, List.getElem_map, List.getElem_range, List.getElem_drop, hm, e, Context.window]
      congr 1
      omega

end Sys2Proof.Machine
end

