-- ==== Sys2Proof/Laws/Exec.lean ====
section
/-!
SUPPORT. What the shared bodies and `exec` can do, said once: one inversion lemma each, which later proofs cite instead
of unfolding the meanings.
-/

namespace Sys2Proof.Machine

/-! ### Counting zeros -/

/-- One read of the zero-counting loop (R170). -/
theorem countZerosLoop_succ (mem : Memory) (fuel i : Nat) (t : Context) :
    countZerosLoop mem (fuel + 1) i t =
      match getBits mem t 1 with
      | none => none
      | some (b, t') => if b = 1 then some (i, t') else countZerosLoop mem fuel (i + 1) t' := rfl

/-- Every single-bit read consumes a bit of the budget (R263). -/
theorem readBound_getBits {mem : Memory} {t t' : Context} {v : Nat} (ht : t.Inv)
    (h : getBits mem t 1 = some (v, t')) : t'.readBound < t.readBound := by
  obtain ⟨u, hu, -, rfl⟩ := getBits_some h
  obtain ⟨i1, i2, i3, i4⟩ := ht
  obtain ⟨h1, h2, h3, h4, h5, h6, h7, h8⟩ := refill_spec (by omega) hu
  have h8' := h8 i4
  have h6' := h6 i2
  unfold Context.readBound
  simp only [bits_ofNat, h2]
  omega

/-- The loop answers registers at rest in the same buffer. -/
theorem countZerosLoop_inv {mem : Memory} {fuel i j : Nat} {t t' : Context} (ht : t.Inv)
    (h : countZerosLoop mem fuel i t = some (j, t')) :
    t'.Inv ∧ t'.dataBase = t.dataBase ∧ t'.size = t.size ∧ i ≤ j := by
  induction fuel generalizing i t with
  | zero => cases h
  | succ fuel ih =>
    rw [countZerosLoop_succ] at h
    split at h
    · cases h
    · rename_i b u hu
      obtain ⟨k1, k2, k3⟩ := getBits_inv (by omega) ht hu
      split at h
      · cases h
        exact ⟨k1, k2, k3, le_refl _⟩
      · obtain ⟨m1, m2, m3, m4⟩ := ih k1 h
        exact ⟨m1, m2.trans k2, m3.trans k3, by omega⟩

/-- GET_UE's body, where it answers, leaves registers at rest in the same buffer. -/
theorem ueDecode_inv {mem : Memory} {t t' : Context} {k : Word} (ht : t.Inv) (h : ueDecode mem t = .ok (k, t')) :
    t'.Inv ∧ t'.dataBase = t.dataBase ∧ t'.size = t.size := by
  unfold ueDecode at h
  split at h
  · cases h
  · rename_i i t1 h1
    obtain ⟨m1, m2, m3, -⟩ := countZerosLoop_inv ht h1
    split at h
    · cases h
    · rename_i hi
      split at h
      · cases h
      · rename_i v t2 h2
        cases h
        unfold ueRemainder at h2
        split at h2
        · cases h2
          exact ⟨m1, m2, m3⟩
        · simp only [Config.ueMaxZeros] at hi
          obtain ⟨k1, k2, k3⟩ := getBits_inv (by omega) m1 h2
          exact ⟨k1, k2.trans m2, k3.trans m3⟩

/-- The failures of GET_UE's body are the two of R170. -/
theorem ueDecode_error {mem : Memory} {t : Context} {st : Status} (h : ueDecode mem t = .error st) :
    st = .insufficientData ∨ st = .codeOverflow := by
  unfold ueDecode at h
  repeat' split at h
  all_goals cases h <;> simp

/-! ### What `exec` can answer -/

/-- A command answers in one of four ways: it fails and writes no register, it answers OK and writes no register, it
answers OK and commits a context, or it is INIT and begins a new use of the reader. -/
inductive Answer (s : State) : Host.Outcome State Fault Refusal → Prop
  /-- a response that is not OK -/
  | failed (st : Status) (h : st ≠ .ok) : Answer s (.next (s.fail st))
  /-- OK, no register written -/
  | looked (v : Value) : Answer s (.next (s.respond .ok v))
  /-- OK, the context committed -/
  | committed (t : Context) (v : Value) : Answer s (.next (s.commit t v))
  /-- INIT -/
  | started (base : Address) (size : Word) : Answer s (.next (s.newUse.commit (initContext base size) 0#35))

theorem getBitsOp_answer (bound : Nat) (n : BitCount) (s : State) : Answer s (getBitsOp bound n s) := by
  unfold getBitsOp
  repeat' split
  · exact .failed _ (by simp)
  · exact .committed _ _
  · exact .failed _ (by simp)

theorem peekBitsOp_answer (bound : Nat) (n : BitCount) (s : State) : Answer s (peekBitsOp bound n s) := by
  unfold peekBitsOp
  repeat' split
  · exact .failed _ (by simp)
  · exact .looked _
  · exact .failed _ (by simp)

theorem execSkip_answer (n : BitCount) (s : State) : Answer s (execSkip n s) := by
  unfold execSkip
  repeat' split
  · exact .failed _ (by simp)
  · exact .committed _ _
  · exact .failed _ (by simp)

theorem execSkipToNextByte_answer (s : State) : Answer s (execSkipToNextByte s) := by
  unfold execSkipToNextByte
  repeat' split
  · exact .committed _ _
  · exact .failed _ (by simp)
  · exact .committed _ _

theorem execGetUe_answer (s : State) : Answer s (execGetUe s) := by
  unfold execGetUe
  split
  · rename_i st h
    exact .failed _ (by rcases ueDecode_error h with rfl | rfl <;> simp)
  · exact .committed _ _

theorem execGetSe_answer (s : State) : Answer s (execGetSe s) := by
  unfold execGetSe
  split
  · rename_i st h
    exact .failed _ (by rcases ueDecode_error h with rfl | rfl <;> simp)
  · exact .committed _ _

theorem execScanForStartCodes_answer (base : Address) (size : Word) (s : State) :
    Answer s (execScanForStartCodes base size s) := by
  unfold execScanForStartCodes
  split
  · exact .looked _
  · exact .failed _ (by simp)

theorem execCeilLog2_answer (v : Word) (s : State) : Answer s (execCeilLog2 v s) := by
  unfold execCeilLog2
  split
  · exact .failed _ (by simp)
  · exact .looked _

/-- Everything `exec` can do, for every command and state. -/
theorem exec_answer (i : Instr) (s : State) : Answer s (exec i s) := by
  cases i with
  | init base size => exact .started _ _
  | skip n => exact execSkip_answer n s
  | skipToNextByte => exact execSkipToNextByte_answer s
  | getBitsUint8 n => exact getBitsOp_answer 8 n s
  | getBitsUint16 n => exact getBitsOp_answer 16 n s
  | getBitsUint32 n => exact getBitsOp_answer 32 n s
  | peekBitsUint8 n => exact peekBitsOp_answer 8 n s
  | peekBitsUint16 n => exact peekBitsOp_answer 16 n s
  | peekBitsUint32 n => exact peekBitsOp_answer 32 n s
  | getUe => exact execGetUe_answer s
  | getSe => exact execGetSe_answer s
  | isByteAligned => exact .looked _
  | getPositionBits => exact .looked _
  | getRemainingBits => exact .looked _
  | getEpbCount => exact .looked _
  | hasMoreRbspData => exact .looked _
  | scanForStartCodes base size => exact execScanForStartCodes_answer base size s
  | ceilLog2 v => exact execCeilLog2_answer v s

/-! ### The step -/

theorem step_nil {s : State} (h : s.commands = []) : step s = .next s := by
  unfold step; rw [h]

theorem step_cons {s : State} {beat : CommandBeat} {rest : List CommandBeat} (h : s.commands = beat :: rest) :
    step s = acceptBeat beat (s.withCommands rest) := by
  unfold step; rw [h]

theorem acceptBeat_ok {beat : CommandBeat} {i : Instr} (h : decode beat = .ok i) (s : State) :
    acceptBeat beat s = exec i s := by
  unfold acceptBeat; rw [h]

theorem acceptBeat_error {beat : CommandBeat} {e : DecodeError} (h : decode beat = .error e) (s : State) :
    acceptBeat beat s = .next (s.fail .illegal) := by
  unfold acceptBeat; rw [h]

end Sys2Proof.Machine
end

