-- ==== Sys2Proof/Laws/Memory.lean ====
section
/-!
SUPPORT. The laws of buffer memory: a store keeps the canonical form, a byte stored is the byte read, and a store leaves
every other address alone.
-/

namespace Sys2Proof.Machine

theorem Memory.wfFrom_cons {low k : Nat} {b : Byte} {rest : Memory} :
    Memory.wfFrom low ((k, b) :: rest) = true ↔
      low ≤ k ∧ k < 2 ^ 32 ∧ b ≠ Config.unlistedByte ∧ Memory.wfFrom (k + 1) rest = true := by
  simp only [Memory.wfFrom, Bool.and_eq_true, decide_eq_true_eq, and_assoc]
  rfl

/-- A lower starting point asks less. -/
theorem Memory.wfFrom_mono {low low' : Nat} {m : Memory} (h : low' ≤ low) (hm : Memory.wfFrom low m = true) :
    Memory.wfFrom low' m = true := by
  cases m with
  | nil => rfl
  | cons c rest =>
    obtain ⟨k, b⟩ := c
    rw [Memory.wfFrom_cons] at hm ⊢
    exact ⟨h.trans hm.1, hm.2⟩

theorem Memory.wfFrom_store {low a : Nat} {b : Byte} (ha : a < 2 ^ 32) (hlow : low ≤ a) {m : Memory}
    (hm : Memory.wfFrom low m = true) : Memory.wfFrom low (Memory.store a b m) = true := by
  induction m generalizing low with
  | nil =>
    unfold Memory.store
    split
    · rfl
    · exact Memory.wfFrom_cons.2 ⟨hlow, ha, ‹_›, rfl⟩
  | cons c rest ih =>
    obtain ⟨k, v⟩ := c
    obtain ⟨h1, h2, h3, h4⟩ := Memory.wfFrom_cons.1 hm
    unfold Memory.store
    split
    · split
      · exact hm
      · exact Memory.wfFrom_cons.2 ⟨hlow, ha, ‹_›, Memory.wfFrom_cons.2 ⟨by omega, h2, h3, h4⟩⟩
    · split
      · subst a
        split
        · exact Memory.wfFrom_mono (by omega) h4
        · exact Memory.wfFrom_cons.2 ⟨hlow, ha, ‹_›, h4⟩
      · exact Memory.wfFrom_cons.2 ⟨h1, h2, h3, ih (by omega) h4⟩

/-- A store keeps the canonical form. -/
theorem Memory.wf_store {m : Memory} (a : Address) (b : Byte) (hm : m.wf = true) :
    Memory.wf (Memory.store a.toNat b m) = true :=
  Memory.wfFrom_store a.isLt (Nat.zero_le _) hm

/-- A list of stores keeps the canonical form. -/
theorem Memory.wf_storeBytes {m : Memory} (base : Address) (l : List Byte) (hm : m.wf = true) :
    (m.storeBytes base l).wf = true := by
  induction l generalizing m base with
  | nil => exact hm
  | cons b rest ih => exact ih _ (Memory.wf_store base b hm)

/-- An address below every listed one reads as the unlisted byte. -/
theorem Memory.lookup_of_lt {low a : Nat} {m : Memory} (hm : Memory.wfFrom low m = true) (h : a < low) :
    Memory.lookup a m = Config.unlistedByte := by
  induction m generalizing low with
  | nil => rfl
  | cons c rest ih =>
    obtain ⟨k, v⟩ := c
    obtain ⟨h1, -, -, h4⟩ := Memory.wfFrom_cons.1 hm
    unfold Memory.lookup
    rw [if_neg (by omega)]
    exact ih h4 (by omega)

/-- Reading the address just stored to gives the byte stored. -/
theorem Memory.lookup_store_self {low a : Nat} (b : Byte) {m : Memory} (hm : Memory.wfFrom low m = true) :
    Memory.lookup a (Memory.store a b m) = b := by
  induction m generalizing low with
  | nil => unfold Memory.store; split <;> simp_all [Memory.lookup]
  | cons c rest ih =>
    obtain ⟨k, v⟩ := c
    obtain ⟨-, -, -, h4⟩ := Memory.wfFrom_cons.1 hm
    unfold Memory.store
    split
    · split
      · rw [Memory.lookup, if_neg (by omega), Memory.lookup_of_lt h4 (by omega)]; exact Eq.symm ‹_›
      · simp [Memory.lookup]
    · split
      · subst a
        split
        · rw [Memory.lookup_of_lt h4 (by omega)]; exact Eq.symm ‹_›
        · simp [Memory.lookup]
      · rw [Memory.lookup, if_neg (by omega)]; exact ih h4

/-- A store leaves every other address alone. -/
theorem Memory.lookup_store_other {a a' : Nat} (b : Byte) (h : a' ≠ a) (m : Memory) :
    Memory.lookup a' (Memory.store a b m) = Memory.lookup a' m := by
  induction m with
  | nil => unfold Memory.store; split <;> simp [Memory.lookup, h.symm]
  | cons c rest ih =>
    obtain ⟨k, v⟩ := c
    unfold Memory.store
    split
    · split <;> simp [Memory.lookup, h.symm]
    · split
      · subst a; split <;> simp [Memory.lookup, h.symm]
      · simp [Memory.lookup, ih]

/-! ### What a reading command fetches from -/

/-- The reader's view of memory keeps the canonical form. -/
theorem State.readerMem_wf {s : State} (h : s.mem.wf = true) : s.readerMem.wf = true := by
  unfold State.readerMem
  induction s.rewritten with
  | nil => exact h
  | cons a rest ih => exact Memory.wf_store a _ ih

/-- An address the host did not rewrite reads as it is stored. -/
theorem State.readerMem_read {s : State} {a : Address} (h : a ∉ s.rewritten) :
    s.readerMem.read a = s.mem.read a := by
  unfold State.readerMem
  induction hl : s.rewritten generalizing s with
  | nil => rfl
  | cons x rest ih =>
    rw [hl, List.mem_cons, not_or] at h
    have hx : a.toNat ≠ x.toNat := fun e => h.1 (BitVec.eq_of_toNat_eq e)
    rw [List.foldr_cons, Memory.read, Memory.lookup_store_other _ hx]
    exact ih (s := { s with rewritten := rest }) h.2 rfl

end Sys2Proof.Machine
end

