-- ==== Sys2Proof/Tests/Slice0.lean ====
section
/-!
SUPPORT. Small tests of the model, each expected value taken from spec/95_test_vectors.md or from the example of the
rule named, and for each statement with hypotheses a witness: a concrete state and operands that meet them.
-/

namespace Sys2Proof.Tests

open Sys2Proof.Machine

/-! ### Small states -/

/-- A reader over the given bytes at 0x2000, right after INIT. -/
def reader (bytes : List Byte) : State :=
  { ctx := initContext 0x2000#32 (BitVec.ofNat 32 bytes.length), mem := Memory.storeBytes [] 0x2000#32 bytes,
    rewritten := [], commands := [], responses := [] }

/-- The same reader with the cursor and the window moved on. -/
def readerAt (bytes : List Byte) (bytePos : Word) (bits : BitCount) (first : Byte) (cache epb : Word) : State :=
  let s := reader bytes
  { s with
    ctx := { s.ctx with
             bytePos := bytePos, bitsInCache := bits, firstByte := first, cache := cache, epbCount := epb } }

/-- The last response of an outcome, as its status and value. -/
def answer : Host.Outcome State Fault Refusal → Option (Status × Nat)
  | .next s => s.responses.getLast?.map fun r => (r.status, r.value.toNat)
  | .fault _ => none
  | .refused _ => none

/-- The registers of an outcome, in the order of the "state" columns of spec/95_test_vectors.md:
`byte_pos / bits_in_cache / first_byte / cache / epb_count`. -/
def registers : Host.Outcome State Fault Refusal → Option (Nat × Nat × Nat × Nat × Nat)
  | .next s => some (s.ctx.bytePos.toNat, s.ctx.bitsInCache.toNat, s.ctx.firstByte.toNat, s.ctx.cache.toNat,
      s.ctx.epbCount.toNat)
  | .fault _ => none
  | .refused _ => none

/-- `C3 5A` after `GET_BITS_UINT8 2` (2.3 row 1). -/
def midC3 : State := readerAt [0xC3#8, 0x5A#8] 1#32 6#6 0xC3#8 0x0000FFFF#32 0#32

/-- `00 00 00 03` after three 8-bit reads (2.2 (e) row 5): an emulation-prevention byte is all that is left. -/
def trailingEpb : State := readerAt [0#8, 0#8, 0#8, 3#8] 3#32 0#6 0x00#8 0xFFFF0000#32 0#32

/-! ### Well-formedness: one ill-formed command for each bound -/

theorem test_wf_refuses_skip_0 : (Instr.skip 0#6).wf = false := by decide
theorem test_wf_refuses_skip_33 : (Instr.skip 33#6).wf = false := by decide
theorem test_wf_refuses_get8_9 : (Instr.getBitsUint8 9#6).wf = false := by decide
theorem test_wf_refuses_get16_17 : (Instr.getBitsUint16 17#6).wf = false := by decide
theorem test_wf_refuses_get32_33 : (Instr.getBitsUint32 33#6).wf = false := by decide
theorem test_wf_refuses_peek8_9 : (Instr.peekBitsUint8 9#6).wf = false := by decide
theorem test_wf_refuses_peek16_17 : (Instr.peekBitsUint16 17#6).wf = false := by decide
theorem test_wf_refuses_peek32_0 : (Instr.peekBitsUint32 0#6).wf = false := by decide
theorem test_wf_accepts_bounds :
    (Instr.skip 32#6).wf = true ∧ (Instr.getBitsUint8 8#6).wf = true ∧ (Instr.peekBitsUint16 16#6).wf = true ∧
      Instr.getUe.wf = true := by decide

/-! ### Decoding, each word written out from R81 and the opcode column of R87 -/

theorem test_decode_init : decode ⟨0b00000001_00000000_00000000_00000000#32, 0x1003#32, 8#32⟩ =
    .ok (.init 0x1003#32 8#32) := by decide
theorem test_decode_skip : decode ⟨0b00000010_00000000_00000000_00100000#32, 0#32, 0#32⟩ = .ok (.skip 32#6) := by decide
theorem test_decode_skipToNextByte : decode ⟨0b00000011_00000000_00000000_00000000#32, 0#32, 0#32⟩ =
    .ok .skipToNextByte := by decide
theorem test_decode_getBitsUint8 : decode ⟨0b00001000_00000000_00000000_00000011#32, 0#32, 0#32⟩ =
    .ok (.getBitsUint8 3#6) := by decide
theorem test_decode_getBitsUint16 : decode ⟨0b00001001_00000000_00000000_00000111#32, 0#32, 0#32⟩ =
    .ok (.getBitsUint16 7#6) := by decide
theorem test_decode_getBitsUint32 : decode ⟨0b00001010_00000000_00000000_00100000#32, 0#32, 0#32⟩ =
    .ok (.getBitsUint32 32#6) := by decide
theorem test_decode_peekBitsUint8 : decode ⟨0b00001100_00000000_00000000_00001000#32, 0#32, 0#32⟩ =
    .ok (.peekBitsUint8 8#6) := by decide
theorem test_decode_peekBitsUint16 : decode ⟨0b00001101_00000000_00000000_00001110#32, 0#32, 0#32⟩ =
    .ok (.peekBitsUint16 14#6) := by decide
theorem test_decode_peekBitsUint32 : decode ⟨0b00001110_00000000_00000000_00000110#32, 0#32, 0#32⟩ =
    .ok (.peekBitsUint32 6#6) := by decide
theorem test_decode_getUe : decode ⟨0b00010000_00000000_00000000_00000000#32, 0#32, 0#32⟩ = .ok .getUe := by decide
theorem test_decode_getSe : decode ⟨0b00010001_00000000_00000000_00000000#32, 7#32, 9#32⟩ = .ok .getSe := by decide
theorem test_decode_isByteAligned : decode ⟨0b00100000_00000000_00000000_00000000#32, 0#32, 0#32⟩ =
    .ok .isByteAligned := by decide
theorem test_decode_getPositionBits : decode ⟨0b00100001_00000000_00000000_00000000#32, 0#32, 0#32⟩ =
    .ok .getPositionBits := by decide
theorem test_decode_getRemainingBits : decode ⟨0b00100010_00000000_00000000_00000000#32, 0#32, 0#32⟩ =
    .ok .getRemainingBits := by decide
theorem test_decode_getEpbCount : decode ⟨0b00100011_00000000_00000000_00000000#32, 0#32, 0#32⟩ =
    .ok .getEpbCount := by decide
theorem test_decode_hasMoreRbspData : decode ⟨0b00100100_00000000_00000000_00000000#32, 0#32, 0#32⟩ =
    .ok .hasMoreRbspData := by decide
theorem test_decode_scanForStartCodes : decode ⟨0b00110000_00000000_00000000_00000000#32, 0x5000#32, 6#32⟩ =
    .ok (.scanForStartCodes 0x5000#32 6#32) := by decide
theorem test_decode_ceilLog2 : decode ⟨0b00110001_00000000_00000000_00000000#32, 5#32, 0xDEADBEEF#32⟩ =
    .ok (.ceilLog2 5#32) := by decide

/-- Reserved opcodes and reserved bits (2.6) are rejected by name. -/
theorem test_decode_rejects : decode ⟨0#32, 0#32, 0#32⟩ = .error (.reservedOpcode 0#8) ∧
    decode ⟨0x0B000008#32, 0#32, 0#32⟩ = .error (.reservedOpcode 0x0B#8) ∧
    decode ⟨0x10000001#32, 0#32, 0#32⟩ = .error (.reservedBits 0x10#8) ∧
    decode ⟨0x08000040#32, 0#32, 0#32⟩ = .error (.reservedBits 0x08#8) := by decide

/-- A beat whose count is out of range spells no command (R90, R223). -/
theorem test_out_of_range_spells_nothing : spellsCommand ⟨0x08000009#32, 0#32, 0#32⟩ = false ∧
    spellsCommand ⟨0x08000008#32, 0#32, 0#32⟩ = true := by decide

theorem test_decodeTableWord : decodeTableWord 32 0x31000000 = some (.ceilLog2 0#32) ∧
    decodeTableWord 96 (0x01000000 + 2 ^ 32 * 0x1003 + 2 ^ 64 * 8) = some (.init 0x1003#32 8#32) ∧
    decodeTableWord 32 0x01000100 = none := by decide

theorem test_withFetchWord : step (State.reset.withFetchWord 32 0x20000000) = exec .isByteAligned State.reset := rfl

/-! ### One step each, from spec/95_test_vectors.md -/

/-- R120's example. -/
theorem test_init : registers (exec (.init 0x1003#32 8#32) midC3) = some (0, 0, 0xFF, 0x000000FF, 0) := by decide

/-- 2.2 (f) row 1. -/
theorem test_skip : registers (exec (.skip 4#6) (reader [0xDE#8, 0xAD#8, 0xBE#8, 0xEF#8, 0x01#8])) =
    some (1, 4, 0xDE, 0x0000FFFF, 0) := by decide

/-- 2.2 (f): SKIP 32 over `00 00 03 00 00 03 AB` drops the first `03`. -/
theorem test_skip_strips : registers (exec (.skip 32#6)
    (reader [0#8, 0#8, 3#8, 0#8, 0#8, 3#8, 0xAB#8])) = some (5, 0, 0x00, 0xFF000000, 1) := by decide

/-- 2.2 (h): the aligned skip leaves the history stale. -/
theorem test_skipToNextByte_aligned : registers (exec .skipToNextByte
    (readerAt [0#8, 0#8, 0xAA#8, 3#8, 0x55#8] 2#32 0#6 0x00#8 0x00FFFF00#32 0#32)) =
    some (3, 0, 0x00, 0x00FFFF00, 0) := by decide

/-- 2.2 (g) row 2. -/
theorem test_skipToNextByte_midByte : registers (exec .skipToNextByte
    (readerAt [0xF0#8, 0x0F#8] 1#32 5#6 0xF0#8 0x0000FFFF#32 0#32)) = some (1, 0, 0xF0, 0x0000FFFF, 0) := by decide

/-- 2.3 row 5. -/
theorem test_getBitsUint8 : answer (exec (.getBitsUint8 8#6) midC3) = some (.ok, 0x0D) ∧
    registers (exec (.getBitsUint8 8#6) midC3) = some (2, 6, 0x5A, 0x00FFFFC3, 0) := by decide

/-- 1.1 row 3: the emulation-prevention byte of `00 00 03 01` is dropped and counted. -/
theorem test_getBitsUint8_strips :
    let s := readerAt [0#8, 0#8, 3#8, 1#8] 2#32 0#6 0x00#8 0x00FFFF00#32 0#32
    answer (exec (.getBitsUint8 8#6) s) = some (.ok, 1) ∧
      registers (exec (.getBitsUint8 8#6) s) = some (4, 0, 0x01, 0xFFFF0000, 1) := by decide

/-- 2.2 (a) row 2. -/
theorem test_getBitsUint16 :
    let s := readerAt [0xB6#8, 0x3C#8, 0xF0#8] 1#32 5#6 0xB6#8 0x0000FFFF#32 0#32
    answer (exec (.getBitsUint16 7#6) s) = some (.ok, 0x58) ∧
      registers (exec (.getBitsUint16 7#6) s) = some (2, 6, 0x3C, 0x00FFFFB6, 0) := by decide

/-- 1.8 row 2: 16 bits from a one-byte buffer fail and keep the state. -/
theorem test_getBitsUint16_fails : answer (exec (.getBitsUint16 16#6) (reader [0xA5#8])) =
    some (.insufficientData, 0) ∧
    registers (exec (.getBitsUint16 16#6) (reader [0xA5#8])) = some (0, 0, 0xFF, 0x000000FF, 0) := by decide

/-- 2.2 (b) row 2: the 39-bit transient. -/
theorem test_getBitsUint32 :
    let s := readerAt [0xA5#8, 0x12#8, 0x34#8, 0x56#8, 0x78#8, 0x9A#8] 1#32 7#6 0xA5#8 0x0000FFFF#32 0#32
    answer (exec (.getBitsUint32 32#6) s) = some (.ok, 0x4A2468AC) ∧
      registers (exec (.getBitsUint32 32#6) s) = some (5, 7, 0x78, 0xA5123456, 0) := by decide

/-- 2.2 (i): addresses wrap at the top of memory. -/
theorem test_getBitsUint32_wraps : answer (exec (.getBitsUint32 32#6)
    { ctx := initContext 0xFFFFFFFE#32 4#32, rewritten := [], commands := [], responses := [],
      mem := Memory.storeBytes [] 0xFFFFFFFE#32 [0xAB#8, 0xCD#8, 0xEF#8, 0x12#8] }) = some (.ok, 0xABCDEF12) := by
  decide

/-- 2.3 row 2. -/
theorem test_peekBitsUint8 : answer (exec (.peekBitsUint8 8#6) midC3) = some (.ok, 0x0D) ∧
    registers (exec (.peekBitsUint8 8#6) midC3) = some (1, 6, 0xC3, 0x0000FFFF, 0) := by decide

/-- 2.3 rows 3 and 4. -/
theorem test_peekBitsUint16 : answer (exec (.peekBitsUint16 14#6) midC3) = some (.ok, 0x035A) ∧
    answer (exec (.peekBitsUint16 15#6) midC3) = some (.insufficientData, 0) := by decide

/-- 2.3 rows 9 and 10. -/
theorem test_peekBitsUint32 :
    answer (exec (.peekBitsUint32 6#6) (readerAt [0xC3#8, 0x5A#8] 2#32 6#6 0x5A#8 0x00FFFFC3#32 0#32)) =
      some (.ok, 0x1A) ∧
    answer (exec (.peekBitsUint32 33#6) midC3) = some (.illegal, 0) := by decide

/-- 1.4: the code of 8. -/
theorem test_getUe : answer (exec .getUe (reader [0x12#8])) = some (.ok, 8) ∧
    registers (exec .getUe (reader [0x12#8])) = some (1, 1, 0x12, 0x0000FFFF, 0) := by decide

/-- 2.4: 33 zeros and a `1` overflow; 40 zeros run out of data. -/
theorem test_getUe_fails : answer (exec .getUe (reader [0#8, 0#8, 0#8, 0#8, 0x40#8])) = some (.codeOverflow, 0) ∧
    answer (exec .getUe (reader [0#8, 0#8, 0#8, 0#8, 0#8])) = some (.insufficientData, 0) := by decide

/-- 1.5: the code of -2. -/
theorem test_getSe : answer (exec .getSe (reader [0x28#8])) = some (.ok, 0xFFFFFFFE) := by decide

/-- 2.4 row 4: `i = 32`, value 0 (R173). -/
theorem test_getSe_longest : answer (exec .getSe
    (reader [0#8, 0#8, 0#8, 0#8, 0x80#8, 0#8, 0#8, 0#8, 0#8])) = some (.ok, 0x80000000) := by decide

theorem test_isByteAligned : answer (exec .isByteAligned midC3) = some (.ok, 0) ∧
    answer (exec .isByteAligned State.reset) = some (.ok, 1) := by decide

/-- 2.2 (b) row 3. -/
theorem test_getPositionBits : answer (exec .getPositionBits
    (readerAt [0xA5#8, 0x12#8, 0x34#8, 0x56#8, 0x78#8, 0x9A#8] 5#32 7#6 0x78#8 0xA5123456#32 0#32)) =
    some (.ok, 33) := by decide

/-- 2.2 (b) row 4. -/
theorem test_getRemainingBits : answer (exec .getRemainingBits
    (readerAt [0xA5#8, 0x12#8, 0x34#8, 0x56#8, 0x78#8, 0x9A#8] 5#32 7#6 0x78#8 0xA5123456#32 0#32)) =
    some (.ok, 15) := by decide

/-- 1.1 row 4. -/
theorem test_getEpbCount : answer (exec .getEpbCount
    (readerAt [0#8, 0#8, 3#8, 1#8] 4#32 0#6 0x01#8 0xFFFF0000#32 1#32)) = some (.ok, 1) := by decide

/-- 1.6. -/
theorem test_hasMoreRbspData : answer (exec .hasMoreRbspData (reader [0x80#8])) = some (.ok, 0) ∧
    answer (exec .hasMoreRbspData (reader [0x81#8])) = some (.ok, 1) := by decide

/-- R197: the exhausted peek. -/
theorem test_hasMoreRbspData_trailing_epb : answer (exec .hasMoreRbspData trailingEpb) = some (.ok, 0) := by decide

/-- 1.7. -/
theorem test_scanForStartCodes : answer (exec (.scanForStartCodes 0x2000#32 6#32)
    (reader [0#8, 1#8, 0#8, 0#8, 1#8, 0xAB#8])) = some (.ok, 2) := by decide

/-- 2.5: the `01` is outside the scanned buffer. -/
theorem test_scanForStartCodes_none : answer (exec (.scanForStartCodes 0x2000#32 4#32)
    (reader [9#8, 9#8, 0#8, 0#8, 1#8, 7#8])) = some (.notFound, 0) := by decide

/-- 1.9 and 2.1. -/
theorem test_ceilLog2 : answer (exec (.ceilLog2 256#32) midC3) = some (.ok, 8) ∧
    answer (exec (.ceilLog2 0x80000001#32) midC3) = some (.ok, 32) := by decide

theorem test_ceilLog2_zero : answer (exec (.ceilLog2 0#32) midC3) = some (.illegal, 0) := by decide

/-- R93: the numbers of the statuses. -/
theorem test_status_codes : [Status.ok, .insufficientData, .codeOverflow, .illegal, .notFound].map Status.code =
    [0#4, 1#4, 2#4, 3#4, 4#4] := by decide

/-- 2.6: an illegal beat is answered before anything else is looked at. -/
theorem test_step_illegal : answer (step { reader [] with commands := [⟨0x08000009#32, 0#32, 0#32⟩] }) =
    some (.illegal, 0) := by decide

/-! ### Witnesses: the hypotheses of each statement, met together -/

theorem witness_inv_reset : State.reset.Inv :=
  ⟨⟨by decide, by decide, by decide, by decide⟩, by decide, fun _ h => absurd h List.not_mem_nil⟩
theorem witness_inv_midC3 : midC3.Inv :=
  ⟨⟨by decide, by decide, by decide, by decide⟩, by decide, fun _ h => absurd h List.not_mem_nil⟩
theorem witness_inv_trailingEpb : trailingEpb.Inv :=
  ⟨⟨by decide, by decide, by decide, by decide⟩, by decide, fun _ h => absurd h List.not_mem_nil⟩
theorem witness_inv_reader12 : (reader [0x12#8]).Inv :=
  ⟨⟨by decide, by decide, by decide, by decide⟩, by decide, fun _ h => absurd h List.not_mem_nil⟩

theorem witness_AcceptedBeatIsItsCommandsBeat :
    decode ⟨0x02000004#32, 1#32, 2#32⟩ = .ok (.skip 4#6) ∧
    decode ⟨0x01000000#32, 1#32, 2#32⟩ = .ok (.init 1#32 2#32) ∧
    decode ⟨0x30000000#32, 1#32, 2#32⟩ = .ok (.scanForStartCodes 1#32 2#32) ∧
    decode ⟨0x31000000#32, 1#32, 2#32⟩ = .ok (.ceilLog2 1#32) := by decide

/-- The lowest and highest opcode of every reserved range. -/
theorem witness_ReservedOpcodeIsIllegal : ∀ op ∈ [0x00, 0x04, 0x07, 0x0B, 0x0F, 0x12, 0x1F, 0x25, 0x2F, 0x32, 0xFF],
    (BitVec.ofNat 32 (op * 2 ^ 24 + 1) >>> 24).toNat = op ∧
    answer (step { midC3 with commands := [⟨BitVec.ofNat 32 (op * 2 ^ 24 + 1), 0#32, 0#32⟩] }) =
      some (.illegal, 0) := by decide

theorem witness_ReservedBitIsIllegal :
    (((0x02000060#32 : Word) >>> 24).toNat ∈ [0x02, 0x08, 0x09, 0x0A, 0x0C, 0x0D, 0x0E] ∧
      (0x02000060#32 : Word).extractLsb' 6 18 ≠ 0#18) ∧
    (((0x10000001#32 : Word) >>> 24).toNat ∈ [0x01, 0x03, 0x10, 0x11, 0x20, 0x21, 0x22, 0x23, 0x24, 0x30, 0x31] ∧
      (0x10000001#32 : Word).extractLsb' 0 24 ≠ 0#24) := by decide

/-- A beat with a count out of range, at both ends: `n = 0` and one above each bound. -/
theorem witness_CountOutOfRangeIsIllegal :
    ∀ p ∈ [(0x02#8, 32), (0x08#8, 8), (0x09#8, 16), (0x0A#8, 32), (0x0C#8, 8), (0x0D#8, 16), (0x0E#8, 32)],
      ∀ n ∈ [0, p.2 + 1], answer (step
        { midC3 with commands := [⟨p.1 ++ 0#18 ++ BitVec.ofNat 6 n, 0#32, 0#32⟩] }) = some (.illegal, 0) := by decide

theorem witness_StepRunsTheDecodedCommand :
    ({ midC3 with commands := [⟨0x08000003#32, 0#32, 0#32⟩] } : State).commands = [⟨0x08000003#32, 0#32, 0#32⟩] ∧
    decode ⟨0x08000003#32, 0#32, 0#32⟩ = .ok (.getBitsUint8 3#6) := by decide

theorem witness_StepWithoutCommandIsIdle : State.reset.commands = [] := rfl

/-- One command on the port: EveryCommandAnswersOnce. -/
theorem witness_EveryCommandAnswersOnce :
    ({ midC3 with commands := [⟨0x10000000#32, 0#32, 0#32⟩] } : State).commands =
      ⟨0x10000000#32, 0#32, 0#32⟩ :: [] := rfl

/-- A failing step: SKIP 1 on an empty reader. -/
theorem witness_FailureChangesNoRegister :
    step { State.reset with commands := [⟨0x02000001#32, 0#32, 0#32⟩] } =
      .next { State.reset with responses := [⟨.insufficientData, 0#35⟩] } := rfl

theorem witness_RepeatedFailureFailsAgain : State.reset.rewritten = [] ∧
    exec (.skip 1#6) State.reset = .next { State.reset with responses := [⟨.insufficientData, 0#35⟩] } ∧
    Status.isFailure .insufficientData = true := ⟨rfl, rfl, rfl⟩

/-- A step that answers next, from a state with the invariant: MemoryIsNeverWritten, StepKeepsInvariant. -/
theorem witness_StepKeepsInvariant : State.reset.Inv ∧ step State.reset = .next State.reset :=
  ⟨witness_inv_reset, rfl⟩

theorem witness_OnlyInitMovesTheBuffer :
    exec (.init 1#32 2#32) State.reset =
      .next { State.reset with ctx := initContext 1#32 2#32, responses := [⟨.ok, 0#35⟩] } ∧
    (initContext 1#32 2#32).dataBase ≠ State.reset.ctx.dataBase := ⟨rfl, by decide⟩

theorem witness_CountersFallOnlyByInit : midC3.ctx.Inv ∧
    registers (exec (.getBitsUint8 8#6) midC3) = some (2, 6, 0x5A, 0x00FFFFC3, 0) ∧
    (∀ base size, Instr.getBitsUint8 8#6 ≠ .init base size) :=
  ⟨witness_inv_midC3.ctx, by decide, fun _ _ h => Instr.noConfusion h⟩

theorem witness_ResetIsAnEmptyReader : State.reset.ctx = Context.reset ∧ 1 ≤ (1#6 : BitCount).toNat ∧
    (1#6 : BitCount).toNat ≤ 8 := by decide

/-- Each clause: bits enough, no byte left, a byte pushed, an emulation-prevention byte last and with a byte behind. -/
theorem witness_RefillPushesAndDrops :
    6 ≤ midC3.ctx.bitsInCache.toNat ∧
    (State.reset.ctx.bitsInCache.toNat < 1 ∧ State.reset.ctx.size.toNat ≤ State.reset.ctx.bytePos.toNat) ∧
    (midC3.ctx.bitsInCache.toNat < 7 ∧ midC3.ctx.bytePos.toNat < midC3.ctx.size.toNat ∧
      midC3.mem.read (midC3.ctx.dataBase + midC3.ctx.bytePos) = 0x5A#8) ∧
    (trailingEpb.ctx.bitsInCache.toNat < 1 ∧ trailingEpb.ctx.bytePos.toNat + 1 = trailingEpb.ctx.size.toNat ∧
      trailingEpb.readerMem.read (trailingEpb.ctx.dataBase + trailingEpb.ctx.bytePos) = 0x03#8 ∧
      trailingEpb.ctx.firstByte = 0x00#8 ∧ trailingEpb.ctx.cache.extractLsb' 0 8 = 0x00#8) ∧
    (let s := readerAt [0#8, 0#8, 3#8, 3#8] 2#32 0#6 0x00#8 0x00FFFF00#32 0#32
     s.ctx.bitsInCache.toNat < 1 ∧ s.ctx.bytePos.toNat + 1 < s.ctx.size.toNat ∧
       s.mem.read (s.ctx.dataBase + s.ctx.bytePos) = 0x03#8 ∧
       s.mem.read (s.ctx.dataBase + (s.ctx.bytePos + 1#32)) = 0x03#8 ∧ s.ctx.firstByte = 0x00#8 ∧
       s.ctx.cache.extractLsb' 0 8 = 0x00#8) := by decide

/-- A refill that answers and one that is exhausted, at the ends of the count's range. -/
theorem witness_SkipRefillsAndDiscards :
    (refill midC3.readerMem midC3.ctx 1).isSome = true ∧ refill midC3.readerMem midC3.ctx 32 = none ∧
    1 ≤ (32#6 : BitCount).toNat ∧ (32#6 : BitCount).toNat ≤ 32 ∧ (0#6 : BitCount).toNat = 0 ∧
    32 < (33#6 : BitCount).toNat := by decide

/-- Both clauses at their common boundary: 14 bits can be delivered, 15 cannot. -/
theorem witness_SkipPassesStreamBits : midC3.ctx.Inv ∧
    (14#6 : BitCount).toNat ≤ (midC3.ctx.deliverable midC3.readerMem).length ∧
    (midC3.ctx.deliverable midC3.readerMem).length < (15#6 : BitCount).toNat :=
  ⟨witness_inv_midC3.ctx, by decide, by decide⟩

theorem witness_SkipLeavesWhatGetLeaves :
    answer (exec (.skip 8#6) midC3) = some (.ok, 0) ∧ answer (exec (.getBitsUint32 8#6) midC3) = some (.ok, 0x0D) := by
  decide

/-- The three cases of SKIP_TO_NEXT_BYTE. -/
theorem witness_SkipToNextByteCases :
    (trailingEpb.ctx.bitsInCache = 0#6 ∧ trailingEpb.ctx.bytePos.toNat < trailingEpb.ctx.size.toNat) ∧
    (State.reset.ctx.bitsInCache = 0#6 ∧ State.reset.ctx.size.toNat ≤ State.reset.ctx.bytePos.toNat) ∧
    midC3.ctx.bitsInCache ≠ 0#6 := by decide

/-- GetTakesTheTopOfTheWindow and PeekTakesNothing: every clause, at the ends of the 8-bit range. -/
theorem witness_GetTakesTheTopOfTheWindow :
    (refill midC3.readerMem midC3.ctx 8).isSome = true ∧ refill State.reset.readerMem State.reset.ctx 8 = none ∧
    (8#6 : BitCount).toNat ≤ 8 ∧ (0#6 : BitCount).toNat = 0 ∧ 8 < (9#6 : BitCount).toNat := by decide

theorem witness_PeekTakesNothing :
    (refill midC3.readerMem midC3.ctx 14).isSome = true ∧ refill midC3.readerMem midC3.ctx 15 = none ∧
    (15#6 : BitCount).toNat ≤ 16 ∧ 16 < (17#6 : BitCount).toNat := by decide

theorem witness_GetDeliversStreamBits : midC3.ctx.Inv ∧ 1 ≤ (14#6 : BitCount).toNat ∧ (15#6 : BitCount).toNat ≤ 16 ∧
    (14#6 : BitCount).toNat ≤ (midC3.ctx.deliverable midC3.readerMem).length ∧
    (midC3.ctx.deliverable midC3.readerMem).length < (15#6 : BitCount).toNat :=
  ⟨witness_inv_midC3.ctx, by decide, by decide, by decide, by decide⟩

theorem witness_PeekShowsStreamBits : midC3.ctx.Inv ∧ 1 ≤ (14#6 : BitCount).toNat ∧ (15#6 : BitCount).toNat ≤ 16 ∧
    (14#6 : BitCount).toNat ≤ (midC3.ctx.deliverable midC3.readerMem).length ∧
    (midC3.ctx.deliverable midC3.readerMem).length < (15#6 : BitCount).toNat :=
  witness_GetDeliversStreamBits

theorem witness_WidthsAgree : 1 ≤ (8#6 : BitCount).toNat ∧ (8#6 : BitCount).toNat ≤ 8 ∧
    (16#6 : BitCount).toNat ≤ 16 := by decide

theorem witness_SplitReadsAgree : midC3.ctx.Inv ∧ midC3.rewritten = [] ∧
    1 ≤ (6#6 : BitCount).toNat ∧ 1 ≤ (8#6 : BitCount).toNat ∧
    (6#6 : BitCount).toNat + (8#6 : BitCount).toNat ≤ 32 ∧
    (6#6 : BitCount).toNat + (8#6 : BitCount).toNat ≤ (midC3.ctx.deliverable midC3.readerMem).length :=
  ⟨witness_inv_midC3.ctx, rfl, by decide, by decide, by decide, by decide⟩

theorem witness_BudgetIsNecessary : midC3.ctx.Inv ∧ answer (exec (.getBitsUint16 14#6) midC3) = some (.ok, 0x035A) :=
  ⟨witness_inv_midC3.ctx, by decide⟩

theorem witness_TrailingEpbIsNotConsumed : trailingEpb.ctx.bitsInCache = 0#6 ∧
    trailingEpb.ctx.bytePos.toNat + 1 = trailingEpb.ctx.size.toNat ∧
    trailingEpb.readerMem.read (trailingEpb.ctx.dataBase + trailingEpb.ctx.bytePos) = 0x03#8 ∧
    trailingEpb.ctx.firstByte = 0x00#8 ∧ trailingEpb.ctx.cache.extractLsb' 0 8 = 0x00#8 := by decide

/-- A byte that is pushed (the zero before `03`) and one that is dropped with a `03` behind it. -/
theorem witness_AlignedByteReadStripsOneByte :
    (let s := reader [0#8]
     s.ctx.bitsInCache = 0#6 ∧ s.ctx.firstByte ≠ 0x00#8 ∧ s.ctx.bytePos.toNat < s.ctx.size.toNat) ∧
    (let s := readerAt [0#8, 0#8, 3#8, 3#8] 2#32 0#6 0x00#8 0x00FFFF00#32 0#32
     s.ctx.bitsInCache = 0#6 ∧ s.readerMem.read (s.ctx.dataBase + s.ctx.bytePos) = 0x03#8 ∧
       s.readerMem.read (s.ctx.dataBase + (s.ctx.bytePos + 1#32)) = 0x03#8 ∧ s.ctx.firstByte = 0x00#8 ∧
       s.ctx.cache.extractLsb' 0 8 = 0x00#8 ∧ s.ctx.bytePos.toNat + 1 < s.ctx.size.toNat) := by decide

/-- RegistersFollowTheFold and ConsumedBitsAreAPrefix: `00 00 03 01` after three 8-bit reads (1.1 row 3). -/
theorem witness_RegistersFollowTheFold :
    let s := readerAt [0#8, 0#8, 3#8, 1#8] 4#32 0#6 0x01#8 0xFFFF0000#32 1#32
    s.ctx.Inv ∧ s.ctx.FollowsFold s.readerMem ∧ answer (exec .getUe s) = some (.insufficientData, 0) :=
  ⟨⟨by decide, by decide, by decide, by decide⟩, ⟨by decide, by decide, by decide, by decide⟩, by decide⟩

theorem witness_ConsumedBitsAreAPrefix : midC3.ctx.Inv ∧ midC3.ctx.FollowsFold midC3.readerMem :=
  ⟨witness_inv_midC3.ctx, ⟨by decide, by decide, by decide, by decide⟩⟩

/-- GET_UE and GET_SE: each clause at a boundary. All zeros; 33 zeros and a `1`; a remainder one bit short; the exact
code of 8. -/
theorem witness_GetUeDecodesTheStream :
    (reader [0x12#8]).ctx.Inv ∧
    (let bits := (reader [0#8]).ctx.deliverable (reader [0#8]).readerMem; leadingZeros bits = bits.length) ∧
    (let s := reader [0#8, 0#8, 0#8, 0#8, 0x40#8]
     let bits := s.ctx.deliverable s.readerMem; leadingZeros bits < bits.length ∧ leadingZeros bits = 33) ∧
    (let bits := (reader [0x08#8]).ctx.deliverable (reader [0x08#8]).readerMem
     leadingZeros bits ≤ 32 ∧ bits.length + 1 = 2 * leadingZeros bits + 1) ∧
    (let bits := (reader [0x12#8]).ctx.deliverable (reader [0x12#8]).readerMem
     leadingZeros bits = 3 ∧ 2 * leadingZeros bits + 1 ≤ bits.length) :=
  ⟨witness_inv_reader12.ctx, by decide, by decide, by decide, by decide⟩

theorem witness_GetUeLeavesWhatSkipsLeave :
    (reader [0x12#8]).ctx.Inv ∧ (reader [0x12#8]).rewritten = [] ∧ (reader [0x80#8]).ctx.Inv ∧
    (let bits := (reader [0x12#8]).ctx.deliverable (reader [0x12#8]).readerMem
     leadingZeros bits = 3 ∧ 2 * 3 + 1 ≤ bits.length) ∧
    (let bits := (reader [0x80#8]).ctx.deliverable (reader [0x80#8]).readerMem; leadingZeros bits = 0 ∧ 1 ≤ bits.length) ∧
    answer (exec .getUe (reader [0x12#8])) = some (.ok, 8) ∧ answer (exec .getUe (reader [0x80#8])) = some (.ok, 0) :=
  ⟨witness_inv_reader12.ctx, rfl, ⟨by decide, by decide, by decide, by decide⟩, by decide, by decide, by decide, by decide⟩

theorem witness_GetSeMapsTheCode :
    (reader [0x28#8]).ctx.Inv ∧
    (let bits := (reader [0x28#8]).ctx.deliverable (reader [0x28#8]).readerMem
     leadingZeros bits = 2 ∧ (2 ^ 2 - 1 + bitsToNat ((bits.drop 3).take 2)) % 2 ^ 32 = 4 ∧ 2 * 2 + 1 ≤ bits.length) ∧
    (4 % 2 = 0 → 2 * (-2 : Int) = -(4 : Int)) :=
  ⟨⟨by decide, by decide, by decide, by decide⟩, by decide, by decide⟩

theorem witness_UnsignedCodesRoundTrip : (reader [0x12#8]).ctx.Inv ∧
    (reader [0x12#8]).ctx.deliverable (reader [0x12#8]).readerMem = ueBits 8 ++ [false] :=
  ⟨witness_inv_reader12.ctx, by decide⟩

/-- The largest code of the range: `k = 2^32 - 2`. -/
theorem witness_UnsignedCodesRoundTrip_largest :
    let s := reader [0#8, 0#8, 0#8, 1#8, 0xFF#8, 0xFF#8, 0xFF#8, 0xFE#8]
    s.ctx.Inv ∧ s.ctx.deliverable s.readerMem = ueBits (2 ^ 32 - 2) ++ [false] :=
  ⟨⟨by decide, by decide, by decide, by decide⟩, by decide⟩

theorem witness_SignedCodesRoundTrip : (reader [0x38#8]).ctx.Inv ∧
    (reader [0x38#8]).ctx.deliverable (reader [0x38#8]).readerMem = ueBits (zigZagCode (-3)) ++ [false, false, false] :=
  ⟨⟨by decide, by decide, by decide, by decide⟩, by decide⟩

theorem witness_PositionQueriesAreExact : midC3.ctx.Inv ∧ State.reset.ctx.Inv :=
  ⟨witness_inv_midC3.ctx, witness_inv_reset.ctx⟩

theorem witness_AlignedIffPositionIsWholeBytes : midC3.ctx.Inv ∧ answer (exec .isByteAligned midC3) = some (.ok, 0) ∧
    answer (exec .getPositionBits midC3) = some (.ok, 2) :=
  ⟨witness_inv_midC3.ctx, by decide, by decide⟩

/-- HAS_MORE_RBSP_DATA: no bit, the exhausted peek, the stop bit alone; and 9 bits, a zero bit, a `1` that is no stop
bit. -/
theorem witness_HasMoreSeesTrailingBits :
    trailingEpb.ctx.Inv ∧ trailingEpb.ctx.deliverable trailingEpb.readerMem = [] ∧
    (reader [0x80#8]).ctx.deliverable (reader [0x80#8]).readerMem = true :: List.replicate 7 false ∧
    (reader [0x81#8]).ctx.deliverable (reader [0x81#8]).readerMem ≠ true :: List.replicate 7 false ∧
    8 < 8 * (midC3.ctx.size.toNat - midC3.ctx.bytePos.toNat) + midC3.ctx.bitsInCache.toNat ∧
    8 * (State.reset.ctx.size.toNat - State.reset.ctx.bytePos.toNat) + State.reset.ctx.bitsInCache.toNat = 0 :=
  ⟨witness_inv_trailingEpb.ctx, by decide, by decide, by decide, by decide, by decide⟩

/-- A start code in the last three bytes, and the same bytes one byte shorter. -/
theorem witness_ScanFindsTheFirstStartCode :
    let s := reader [0xFF#8, 0#8, 0#8, 1#8]
    (1 + 3 ≤ (4#32 : Word).toNat ∧ s.mem.read (0x2000#32 + 1#32) = 0x00#8 ∧ s.mem.read (0x2000#32 + 2#32) = 0x00#8 ∧
      s.mem.read (0x2000#32 + 3#32) = 0x01#8) ∧ s.mem.read (0x2000#32 + 0#32) ≠ 0x00#8 ∧
      ¬ 1 + 3 ≤ (3#32 : Word).toNat := by decide

theorem witness_CeilLog2IsTheLeastPower : 1 ≤ (1#32 : Word).toNat ∧ (0#32 : Word) = 0#32 := by decide

theorem witness_ConsumingCommandsFrame : answer (exec (.skip 1#6) midC3) = some (.ok, 0) ∧
    answer (exec .skipToNextByte midC3) = some (.ok, 0) := by decide

theorem witness_LookingCommandsFrame : answer (exec (.peekBitsUint8 8#6) midC3) = some (.ok, 0x0D) := by decide

/-- A store outside the buffer `[0x2000, 0x2002)`, and a scan that does not reach it. -/
theorem witness_BytesOutsideTheBufferAreUnseen : midC3.mem.wf = true ∧
    midC3.ctx.size.toNat ≤ ((0x2002#32 : Address) - midC3.ctx.dataBase).toNat ∧
    (2#32 : Word).toNat ≤ ((0x2002#32 : Address) - 0x2000#32).toNat ∧
    answer (exec .getUe midC3) = some (.ok, 0x19) := by decide

/-- A store at the last byte of the live buffer, one behind it, and the invariant. -/
theorem witness_HostStoreChangesOneByte : midC3.Inv ∧
    ((0x2001#32 : Address) - midC3.ctx.dataBase).toNat < midC3.ctx.size.toNat ∧
    midC3.ctx.size.toNat ≤ ((0x2002#32 : Address) - midC3.ctx.dataBase).toNat ∧
    (midC3.hostStore 0x2001#32 7#8).rewritten = [0x2001#32] ∧ (midC3.hostStore 0x2002#32 7#8).rewritten = [] :=
  ⟨witness_inv_midC3, by decide, by decide, by decide, by decide⟩

theorem witness_ReaderSeesTheStoredBytes : midC3.mem.wf = true ∧
    (0x2000#32 : Address) ∉ (midC3.hostStore 0x2001#32 7#8).rewritten := by decide

/-- R252: the host rewrites the buffer and issues INIT again; the reader sees the new byte. -/
theorem test_rewritten_buffer_after_init :
    (match exec (.init 0x2000#32 2#32) (midC3.hostStore 0x2000#32 7#8) with
      | .next t => answer (exec (.getBitsUint8 8#6) t)
      | .fault _ => none
      | .refused _ => none) = some (.ok, 7) := by decide

theorem witness_OnlyInitEndsABufferUse :
    exec (.init 1#32 2#32) State.reset =
      .next { State.reset with ctx := initContext 1#32 2#32, responses := [⟨.ok, 0#35⟩] } ∧
    (∀ base size, Instr.getUe ≠ .init base size) ∧ answer (exec .getUe midC3) = some (.ok, 0x19) :=
  ⟨rfl, fun _ _ h => Instr.noConfusion h, by decide⟩

/-- The peek and the get both answer, and nothing has been rewritten. -/
theorem witness_PeekThenGetAgree : midC3.rewritten = [] ∧
    answer (exec (.peekBitsUint8 8#6) midC3) = some (.ok, 0x0D) ∧
    answer (exec (.getBitsUint8 8#6) midC3) = some (.ok, 0x0D) ∧
    answer (exec (.peekBitsUint16 15#6) midC3) = some (.insufficientData, 0) := by decide

/-- Two readers that differ in the upper bits of `cache` only. -/
theorem witness_CacheHistoryIsUnseen :
    midC3.ctx.Inv ∧ midC3.ctx.SameButCache { midC3.ctx with cache := 0x12345678#32 } ∧
    answer (exec (.getBitsUint8 8#6) midC3) = some (.ok, 0x0D) :=
  ⟨witness_inv_midC3.ctx, ⟨rfl, by decide⟩, by decide⟩

end Sys2Proof.Tests
end

section
/-! The obligations of spec/00_scope.md section 4: what one step is, with a command on the port and without one. -/

namespace Sys2Proof.Proofs.Scope

open Sys2Proof.Machine

/-- Settles O8: the step takes the beat and accepts it, and accepting a beat that decodes is executing its command. -/
theorem stepRunsTheDecodedCommand : Obligations.StepRunsTheDecodedCommand := by
  intro s beat rest i hport hdecode
  calc step s = acceptBeat beat (s.withCommands rest) := step_cons hport
    _ = exec i (s.withCommands rest) := acceptBeat_ok hdecode _

/-- Settles O9: with no beat to take, `step` answers the state it was given, the model's choice of log entry 3. -/
theorem stepWithoutCommandIsIdle : Obligations.StepWithoutCommandIsIdle :=
  fun _ hport => step_nil hport

end Sys2Proof.Proofs.Scope
end

section
/-!
What a command can do to the seven registers (spec/10_state.md R20): INIT loads them; every other command leaves them
alone or moves them by bounded reads, a discard of the window and a step over one raw byte. Each fact about every
command is then a fact about these three moves.
-/

namespace Sys2Proof.Machine

open Relation (ReflTransGen)

/-! ### The moves -/

/-- The ways a command other than INIT moves the registers: a GetBits of at most 32 bits (R150), or one of the two
ways of SKIP_TO_NEXT_BYTE (R127). -/
inductive Context.Moves (mem : Memory) (c : Context) : Context → Prop
  /-- a read of `n` bits that is not exhausted -/
  | read {n v : Nat} {t : Context} (hn : n ≤ 32) (h : getBits mem c n = some (v, t)) : c.Moves mem t
  /-- the unread bits of the window are discarded -/
  | discard : c.Moves mem { c with bitsInCache := 0#6 }
  /-- one raw byte is stepped over -/
  | stepOver (aligned : c.bitsInCache = 0#6) (h : c.bytePos.toNat < c.size.toNat) :
      c.Moves mem { c with bytePos := c.bytePos + 1#32 }

/-- A command other than INIT keeps the registers or commits a copy that moves lead to. -/
inductive Reply (s : State) : Host.Outcome State Fault Refusal → Prop
  /-- a response and nothing else -/
  | kept (st : Status) (v : Value) : Reply s (.next (s.respond st v))
  /-- an OK response and the moved registers -/
  | moved {t : Context} (v : Value) (h : ReflTransGen (Context.Moves s.readerMem) s.ctx t) :
      Reply s (.next (s.commit t v))

/-! ### The reads of each command -/

theorem getBits_of_refill {mem : Memory} {c t : Context} {n : Nat} (h : refill mem c n = some t) :
    ∃ v, getBits mem c n = some (v, { t with bitsInCache := BitVec.ofNat 6 (t.bitsInCache.toNat - n) }) :=
  ⟨_, by simp only [getBits, h]; rfl⟩

/-- SKIP discards what GetBits of as many bits extracts (R125, R150). -/
theorem getBits_of_skip {mem : Memory} {c t : Context} {n : BitCount} (hn : n.toNat ≤ 32)
    (h : refill mem c n.toNat = some t) :
    ∃ v, getBits mem c n.toNat = some (v, { t with bitsInCache := t.bitsInCache - n }) := by
  have hle : n.toNat ≤ t.bitsInCache.toNat := (refill_spec hn h).2.2.1
  have hbits : BitVec.ofNat 6 (t.bitsInCache.toNat - n.toNat) = t.bitsInCache - n := by
    apply BitVec.eq_of_toNat_eq
    rw [bits_ofNat, BitVec.toNat_sub_of_le (BitVec.le_def.2 hle)]
  rw [← hbits]
  exact getBits_of_refill h

theorem countInRange_le {bound : Nat} {n : BitCount} (hbound : bound ≤ 32) (h : countInRange bound n = true) :
    n.toNat ≤ 32 := by
  simp only [countInRange, Bool.and_eq_true, decide_eq_true_eq] at h
  omega

theorem countZerosLoop_moves {mem : Memory} {fuel i j : Nat} {c t : Context}
    (h : countZerosLoop mem fuel i c = some (j, t)) : ReflTransGen (Context.Moves mem) c t := by
  induction fuel generalizing i c with
  | zero => cases h
  | succ fuel ih =>
    rw [countZerosLoop_succ] at h
    split at h
    · cases h
    · rename_i b u hu
      have hmove : c.Moves mem u := .read (by omega) hu
      split at h
      · cases h
        exact .single hmove
      · exact .head hmove (ih h)

theorem ueRemainder_moves {mem : Memory} {i v : Nat} {c t : Context} (hi : i ≤ 32)
    (h : ueRemainder mem c i = some (v, t)) : ReflTransGen (Context.Moves mem) c t := by
  unfold ueRemainder at h
  split at h
  · cases h
    exact .refl
  · exact .single (.read hi h)

theorem ueDecode_moves {mem : Memory} {k : Word} {c t : Context} (h : ueDecode mem c = .ok (k, t)) :
    ReflTransGen (Context.Moves mem) c t := by
  unfold ueDecode at h
  split at h
  · cases h
  · rename_i i u hzeros
    split at h
    · cases h
    · rename_i hmax
      split at h
      · cases h
      · rename_i v w hrest
        cases h
        exact (countZerosLoop_moves hzeros).trans (ueRemainder_moves (not_lt.1 hmax) hrest)

/-! ### What each command replies -/

theorem getBitsOp_reply {bound : Nat} (hbound : bound ≤ 32) (n : BitCount) (s : State) :
    Reply s (getBitsOp bound n s) := by
  unfold getBitsOp
  split
  · rename_i hn
    split
    · exact .kept _ _
    · rename_i v t h
      exact .moved _ (.single (.read (countInRange_le hbound hn) h))
  · exact .kept _ _

theorem peekBitsOp_reply (bound : Nat) (n : BitCount) (s : State) : Reply s (peekBitsOp bound n s) := by
  unfold peekBitsOp
  repeat' split
  all_goals exact .kept _ _

theorem execSkip_reply (n : BitCount) (s : State) : Reply s (execSkip n s) := by
  unfold execSkip
  split
  · rename_i hn
    split
    · exact .kept _ _
    · rename_i t h
      have hle := countInRange_le (le_refl 32) hn
      obtain ⟨v, hread⟩ := getBits_of_skip hle h
      exact .moved _ (.single (.read hle hread))
  · exact .kept _ _

theorem execSkipToNextByte_reply (s : State) : Reply s (execSkipToNextByte s) := by
  unfold execSkipToNextByte
  split
  · rename_i aligned
    split
    · rename_i hlt
      exact .moved _ (.single (.stepOver aligned hlt))
    · exact .kept _ _
  · exact .moved _ (.single .discard)

theorem execGetUe_reply (s : State) : Reply s (execGetUe s) := by
  unfold execGetUe
  split
  · exact .kept _ _
  · rename_i h
    exact .moved _ (ueDecode_moves h)

theorem execGetSe_reply (s : State) : Reply s (execGetSe s) := by
  unfold execGetSe
  split
  · exact .kept _ _
  · rename_i h
    exact .moved _ (ueDecode_moves h)

theorem execScanForStartCodes_reply (base : Address) (size : Word) (s : State) :
    Reply s (execScanForStartCodes base size s) := by
  unfold execScanForStartCodes
  split <;> exact .kept _ _

theorem execCeilLog2_reply (v : Word) (s : State) : Reply s (execCeilLog2 v s) := by
  unfold execCeilLog2
  split <;> exact .kept _ _

theorem exec_reply (i : Instr) (s : State) (hi : ∀ base size, i ≠ .init base size) : Reply s (exec i s) := by
  cases i with
  | init base size => exact absurd rfl (hi base size)
  | skip n => exact execSkip_reply n s
  | skipToNextByte => exact execSkipToNextByte_reply s
  | getBitsUint8 n => exact getBitsOp_reply (by omega) n s
  | getBitsUint16 n => exact getBitsOp_reply (by omega) n s
  | getBitsUint32 n => exact getBitsOp_reply (by omega) n s
  | peekBitsUint8 n => exact peekBitsOp_reply 8 n s
  | peekBitsUint16 n => exact peekBitsOp_reply 16 n s
  | peekBitsUint32 n => exact peekBitsOp_reply 32 n s
  | getUe => exact execGetUe_reply s
  | getSe => exact execGetSe_reply s
  | isByteAligned => exact .kept _ _
  | getPositionBits => exact .kept _ _
  | getRemainingBits => exact .kept _ _
  | getEpbCount => exact .kept _ _
  | hasMoreRbspData => exact .kept _ _
  | scanForStartCodes base size => exact execScanForStartCodes_reply base size s
  | ceilLog2 v => exact execCeilLog2_reply v s

/-- Every command: INIT loads the registers and begins a new use of the reader; any other command leaves memory and
the record of rewritten addresses alone and moves the registers. -/
theorem exec_next_cases {i : Instr} {s t : State} (h : exec i s = .next t) :
    (∃ base size, i = .init base size ∧ t = s.newUse.commit (initContext base size) 0#35) ∨
    (t.mem = s.mem ∧ t.rewritten = s.rewritten ∧ ReflTransGen (Context.Moves s.readerMem) s.ctx t.ctx) := by
  by_cases hi : ∃ base size, i = .init base size
  · obtain ⟨base, size, rfl⟩ := hi
    cases h
    exact .inl ⟨base, size, rfl, rfl⟩
  · have hr := exec_reply i s fun base size e => hi ⟨base, size, e⟩
    rw [h] at hr
    cases hr with
    | kept st v => exact .inr ⟨rfl, rfl, .refl⟩
    | moved v hm => exact .inr ⟨rfl, rfl, hm⟩

/-- Every step: idle, ERR_ILLEGAL for a beat that spells no command (R224), or a command with its beat taken. -/
theorem step_next_cases {s t : State} (h : step s = .next t) :
    t = s ∨ ∃ rest, t = (s.withCommands rest).fail .illegal ∨ ∃ i, exec i (s.withCommands rest) = .next t := by
  cases hc : s.commands with
  | nil =>
    rw [step_nil hc] at h
    cases h
    exact .inl rfl
  | cons beat rest =>
    rw [step_cons hc] at h
    cases hd : decode beat with
    | error e =>
      rw [acceptBeat_error hd] at h
      cases h
      exact .inr ⟨rest, .inl rfl⟩
    | ok i =>
      rw [acceptBeat_ok hd] at h
      exact .inr ⟨rest, .inr ⟨i, h⟩⟩

/-! ### What the moves keep -/

/-- R21, R22: no move writes `data_base` or `size`, from any registers. -/
theorem Context.Moves.same_buffer {mem : Memory} {c t : Context} (h : c.Moves mem t) :
    t.dataBase = c.dataBase ∧ t.size = c.size := by
  cases h with
  | read hn h =>
    obtain ⟨u, hu, -, rfl⟩ := getBits_some h
    obtain ⟨hbase, hsize, -⟩ := refill_spec hn hu
    exact ⟨hbase, hsize⟩
  | discard => exact ⟨rfl, rfl⟩
  | stepOver _ _ => exact ⟨rfl, rfl⟩

/-- R27, R30, R31, R32: every move keeps the registers at rest. -/
theorem Context.Moves.inv {mem : Memory} {c t : Context} (h : c.Moves mem t) (hc : c.Inv) : t.Inv := by
  obtain ⟨hbits, hpos, hbacked, hepb⟩ := hc
  cases h with
  | read hn h => exact (getBits_inv hn ⟨hbits, hpos, hbacked, hepb⟩ h).1
  | discard => exact ⟨Nat.zero_le _, hpos, Nat.zero_le _, hepb⟩
  | stepOver aligned hlt =>
    have hsucc := bytePos_succ hlt
    exact ⟨hbits, by simp only [hsucc]; omega, by simp only [hsucc]; omega, by simp only [hsucc]; omega⟩

/-- R23, R33: from registers at rest no move lowers `epb_count` or `byte_pos`. -/
theorem Context.Moves.counters_le {mem : Memory} {c t : Context} (h : c.Moves mem t) (hc : c.Inv) :
    c.epbCount.toNat ≤ t.epbCount.toNat ∧ c.bytePos.toNat ≤ t.bytePos.toNat := by
  cases h with
  | read hn h =>
    obtain ⟨u, hu, -, rfl⟩ := getBits_some h
    obtain ⟨-, -, -, -, hpos, -, -, hepb⟩ := refill_spec hn hu
    exact ⟨(hepb hc.epb_le).2.1, hpos⟩
  | discard => exact ⟨le_refl _, le_refl _⟩
  | stepOver _ hlt => exact ⟨le_refl _, by simp only [bytePos_succ hlt]; omega⟩

theorem moves_same_buffer {mem : Memory} {c t : Context} (h : ReflTransGen (Context.Moves mem) c t) :
    t.dataBase = c.dataBase ∧ t.size = c.size := by
  induction h with
  | refl => exact ⟨rfl, rfl⟩
  | tail _ hmove ih =>
    obtain ⟨hbase, hsize⟩ := hmove.same_buffer
    exact ⟨hbase.trans ih.1, hsize.trans ih.2⟩

theorem moves_inv {mem : Memory} {c t : Context} (h : ReflTransGen (Context.Moves mem) c t) (hc : c.Inv) : t.Inv := by
  induction h with
  | refl => exact hc
  | tail _ hmove ih => exact hmove.inv ih

theorem moves_counters_le {mem : Memory} {c t : Context} (h : ReflTransGen (Context.Moves mem) c t) (hc : c.Inv) :
    c.epbCount.toNat ≤ t.epbCount.toNat ∧ c.bytePos.toNat ≤ t.bytePos.toNat := by
  induction h with
  | refl => exact ⟨le_refl _, le_refl _⟩
  | tail hpath hmove ih =>
    obtain ⟨hepb, hpos⟩ := hmove.counters_le (moves_inv hpath hc)
    exact ⟨ih.1.trans hepb, ih.2.trans hpos⟩

/-! ### The invariant at the start and along a command -/

/-- INIT leaves the registers at rest, whatever its operands (R120). -/
theorem initContext_inv (base : Address) (size : Word) : (initContext base size).Inv :=
  ⟨Nat.zero_le _, Nat.zero_le _, Nat.zero_le _, le_refl _⟩

theorem exec_inv {i : Instr} {s t : State} (hs : s.Inv) (h : exec i s = .next t) : t.Inv := by
  rcases exec_next_cases h with ⟨base, size, -, rfl⟩ | ⟨hmem, hrewritten, hmoves⟩
  · exact ⟨initContext_inv base size, hs.mem, fun _ ha => absurd ha List.not_mem_nil⟩
  · obtain ⟨hbase, hsize⟩ := moves_same_buffer hmoves
    refine ⟨moves_inv hmoves hs.ctx, by rw [hmem]; exact hs.mem, fun a ha => ?_⟩
    rw [hrewritten] at ha
    unfold Context.inBuffer
    rw [hbase, hsize]
    exact hs.rewritten a ha

end Sys2Proof.Machine
end

section
/-!
What `cache` holds beyond the history of the emulation-prevention test cannot be seen (spec/10_state.md R25): two
readers that agree elsewhere extract the same bits, and every command keeps them agreeing.
-/

namespace Sys2Proof.Machine

/-! ### Registers that differ in `cache` alone -/

theorem sameButCache_iff {c d : Context} :
    c.SameButCache d ↔
      ∃ w : Word, d = { c with cache := w } ∧
        (c.firstByte = 0x00#8 → c.cache.extractLsb' 0 8 = w.extractLsb' 0 8) := by
  constructor
  · rintro ⟨hothers, hhistory⟩
    exact ⟨d.cache, hothers.symm, hhistory⟩
  · rintro ⟨w, rfl, hhistory⟩
    exact ⟨rfl, hhistory⟩

theorem Context.SameButCache.refl (c : Context) : c.SameButCache c := ⟨rfl, fun _ => rfl⟩

theorem Context.SameButCache.bits_eq {c d : Context} (h : c.SameButCache d) : d.bitsInCache = c.bitsInCache := by
  rw [← h.others]

/-- Bits are discarded on both sides alike. -/
theorem Context.SameButCache.withBits_same {c d : Context} (h : c.SameButCache d) (b : BitCount) :
    Context.SameButCache { c with bitsInCache := b } { d with bitsInCache := b } := by
  obtain ⟨w, rfl, hhistory⟩ := sameButCache_iff.1 h
  exact ⟨rfl, hhistory⟩

/-- The emulation-prevention test reads `cache[7:0]` only while `first_byte` is zero (R122). -/
theorem Context.SameButCache.isEpb_eq {c d : Context} (h : c.SameButCache d) (b : Byte) : isEpb d b = isEpb c b := by
  obtain ⟨w, rfl, hhistory⟩ := sameButCache_iff.1 h
  by_cases hfirst : c.firstByte = 0x00#8
  · simp [isEpb, hhistory hfirst]
  · have htest : (c.firstByte == 0x00#8) = false := beq_eq_false_iff_ne.2 hfirst
    simp [isEpb, htest]

/-- After a push the histories agree: `cache[7:0]` is the byte both held in `first_byte`. -/
theorem Context.SameButCache.pushByte_same {c d : Context} (h : c.SameButCache d) (b : Byte) :
    (pushByte c b).SameButCache (pushByte d b) := by
  obtain ⟨w, rfl, -⟩ := sameButCache_iff.1 h
  exact ⟨rfl, fun _ => by rw [pushByte_cache_low, pushByte_cache_low]⟩

/-! ### Refill -/

/-- Two fetching operations end alike: both exhausted, or both with registers that differ in `cache` alone. -/
def SameRefill (x y : Option Context) : Prop :=
  (x = none ∧ y = none) ∨ ∃ t e, x = some t ∧ y = some e ∧ t.SameButCache e

theorem Context.SameButCache.fetchByte_same {c d : Context} (h : c.SameButCache d) (mem : Memory) :
    (fetchByte mem c = none ∧ fetchByte mem d = none) ∨
    ∃ b t e, fetchByte mem c = some (b, t) ∧ fetchByte mem d = some (b, e) ∧ t.SameButCache e := by
  obtain ⟨w, rfl, hhistory⟩ := sameButCache_iff.1 h
  by_cases hend : c.size.toNat ≤ c.bytePos.toNat
  · exact .inl ⟨fetchByte_none.2 hend, fetchByte_none.2 hend⟩
  · have hlt := not_le.1 hend
    exact .inr ⟨_, _, _, fetchByte_some.2 ⟨hlt, rfl, rfl⟩, fetchByte_some.2 ⟨hlt, rfl, rfl⟩, rfl, hhistory⟩

theorem Context.SameButCache.countDrop_same {c d : Context} (h : c.SameButCache d) :
    Context.SameButCache { c with epbCount := c.epbCount + 1#32 } { d with epbCount := d.epbCount + 1#32 } := by
  obtain ⟨w, rfl, hhistory⟩ := sameButCache_iff.1 h
  exact ⟨rfl, hhistory⟩

theorem Context.SameButCache.pushNext_same {c d : Context} (h : c.SameButCache d) (mem : Memory) :
    SameRefill (pushNext mem c) (pushNext mem d) := by
  unfold pushNext
  rcases h.fetchByte_same mem with ⟨hc, hd⟩ | ⟨b, t, e, hc, hd, hte⟩
  · simp only [hc, hd]
    exact .inl ⟨rfl, rfl⟩
  · simp only [hc, hd, h.isEpb_eq]
    split
    · rcases hte.countDrop_same.fetchByte_same mem with ⟨hc2, hd2⟩ | ⟨b2, t2, e2, hc2, hd2, hte2⟩
      · simp only [hc2, hd2]
        exact .inl ⟨rfl, rfl⟩
      · simp only [hc2, hd2]
        exact .inr ⟨_, _, rfl, rfl, hte2.pushByte_same b2⟩
    · exact .inr ⟨_, _, rfl, rfl, hte.pushByte_same b⟩

theorem Context.SameButCache.refillLoop_same {c d : Context} (h : c.SameButCache d) (mem : Memory) (n fuel : Nat) :
    SameRefill (refillLoop mem n fuel c) (refillLoop mem n fuel d) := by
  induction fuel generalizing c d with
  | zero => exact .inr ⟨c, d, rfl, rfl, h⟩
  | succ fuel ih =>
    unfold refillLoop
    rw [h.bits_eq]
    split
    · rcases h.pushNext_same mem with ⟨hc, hd⟩ | ⟨t, e, hc, hd, hte⟩
      · simp only [hc, hd]
        exact .inl ⟨rfl, rfl⟩
      · simp only [hc, hd]
        exact ih hte
    · exact .inr ⟨c, d, rfl, rfl, h⟩

theorem Context.SameButCache.refill_same {c d : Context} (h : c.SameButCache d) (mem : Memory) (n : Nat) :
    SameRefill (refill mem c n) (refill mem d n) := h.refillLoop_same mem n n

/-! ### GetBits -/

/-- With a last byte that is not zero the stripper does not look at the byte before it. -/
theorem strip_of_last_ne_zero {b : Byte} (hb : b ≠ 0x00#8) (a a' : Byte) (l : List Byte) :
    strip a b false l = strip a' b false l := by
  cases l with
  | nil => rfl
  | cons x rest => simp [strip, hb]

/-- At rest the valid bits lie in `first_byte`, so `cache` holds none of them (R28, R30). -/
theorem Context.SameButCache.windowBits_eq {c d : Context} (h : c.SameButCache d) (hbits : c.bitsInCache.toNat ≤ 7) :
    d.windowBits = c.windowBits := by
  obtain ⟨w, rfl, -⟩ := sameButCache_iff.1 h
  unfold Context.windowBits
  refine List.map_congr_left fun k hk => ?_
  have hk := List.mem_range.1 hk
  have hlow : c.bitsInCache.toNat - 1 - k < 8 := by omega
  simp only [Context.window, BitVec.getLsbD_append, hlow, if_true]

/-- The bits that can still be delivered do not show what else `cache` holds. -/
theorem Context.SameButCache.deliverable_eq {c d : Context} (h : c.SameButCache d) (hbits : c.bitsInCache.toNat ≤ 7)
    (mem : Memory) : d.deliverable mem = c.deliverable mem := by
  unfold Context.deliverable
  rw [h.windowBits_eq hbits]
  obtain ⟨w, rfl, hhistory⟩ := sameButCache_iff.1 h
  by_cases hfirst : c.firstByte = 0x00#8
  · rw [hhistory hfirst]
    rfl
  · rw [strip_of_last_ne_zero hfirst (w.extractLsb' 0 8) (c.cache.extractLsb' 0 8)]
    rfl

/-- Two reads end alike: both fail, or both deliver one value and leave registers at rest that differ in `cache`
alone. -/
def SameRead (x y : Option (Nat × Context)) : Prop :=
  (x = none ∧ y = none) ∨ ∃ v t e, x = some (v, t) ∧ y = some (v, e) ∧ t.Inv ∧ t.SameButCache e

theorem Context.SameButCache.getBits_same {c d : Context} (h : c.SameButCache d) (hc : c.Inv) (mem : Memory) {n : Nat}
    (hn : n ≤ 32) : SameRead (getBits mem c n) (getBits mem d n) := by
  rcases h.refill_same mem n with ⟨hrc, hrd⟩ | ⟨t, e, hrc, hrd, hte⟩
  · exact .inl ⟨getBits_none.2 hrc, getBits_none.2 hrd⟩
  · obtain ⟨v, hgc⟩ := getBits_of_refill hrc
    obtain ⟨v', hgd⟩ := getBits_of_refill hrd
    have hdbits : d.bitsInCache.toNat ≤ 7 := by rw [h.bits_eq]; exact hc.bits_le
    have hvalue : v' = v := by
      rw [(getBits_deliverable hn hdbits hgd).1, (getBits_deliverable hn hc.bits_le hgc).1,
        h.deliverable_eq hc.bits_le]
    rw [hvalue, hte.bits_eq] at hgd
    exact .inr ⟨v, _, _, hgc, hgd, (getBits_inv hn hc hgc).1, hte.withBits_same _⟩

/-! ### Exponential-Golomb codes and HAS_MORE_RBSP_DATA -/

theorem Context.SameButCache.countZerosLoop_same {c d : Context} (h : c.SameButCache d) (hc : c.Inv) (mem : Memory)
    (fuel i : Nat) : SameRead (countZerosLoop mem fuel i c) (countZerosLoop mem fuel i d) := by
  induction fuel generalizing i c d with
  | zero => exact .inl ⟨rfl, rfl⟩
  | succ fuel ih =>
    rw [countZerosLoop_succ, countZerosLoop_succ]
    rcases h.getBits_same hc mem (n := 1) (by omega) with ⟨hgc, hgd⟩ | ⟨b, t, e, hgc, hgd, ht, hte⟩
    · simp only [hgc, hgd]
      exact .inl ⟨rfl, rfl⟩
    · simp only [hgc, hgd]
      split
      · exact .inr ⟨i, t, e, rfl, rfl, ht, hte⟩
      · exact ih hte ht (i + 1)

theorem Context.SameButCache.countZeros_same {c d : Context} (h : c.SameButCache d) (hc : c.Inv) (mem : Memory) :
    SameRead (countZeros mem c) (countZeros mem d) := by
  have hbound : d.readBound = c.readBound := by
    rw [← h.others]
    rfl
  unfold countZeros
  rw [hbound]
  exact h.countZerosLoop_same hc mem _ _

theorem Context.SameButCache.ueRemainder_same {c d : Context} (h : c.SameButCache d) (hc : c.Inv) (mem : Memory)
    {i : Nat} (hi : i ≤ 32) : SameRead (ueRemainder mem c i) (ueRemainder mem d i) := by
  unfold ueRemainder
  split
  · exact .inr ⟨0, c, d, rfl, rfl, hc, h⟩
  · exact h.getBits_same hc mem hi

theorem Context.SameButCache.ueDecode_same {c d : Context} (h : c.SameButCache d) (hc : c.Inv) (mem : Memory) :
    (∃ st, ueDecode mem c = .error st ∧ ueDecode mem d = .error st) ∨
    ∃ k t e, ueDecode mem c = .ok (k, t) ∧ ueDecode mem d = .ok (k, e) ∧ t.SameButCache e := by
  unfold ueDecode
  rcases h.countZeros_same hc mem with ⟨hzc, hzd⟩ | ⟨i, t, e, hzc, hzd, ht, hte⟩
  · simp only [hzc, hzd]
    exact .inl ⟨_, rfl, rfl⟩
  · simp only [hzc, hzd]
    split
    · exact .inl ⟨_, rfl, rfl⟩
    · rename_i hmax
      rcases hte.ueRemainder_same ht mem (not_lt.1 hmax) with ⟨hrc, hrd⟩ | ⟨v, t2, e2, hrc, hrd, -, hte2⟩
      · simp only [hrc, hrd]
        exact .inl ⟨_, rfl, rfl⟩
      · simp only [hrc, hrd]
        exact .inr ⟨_, t2, e2, rfl, rfl, hte2⟩

theorem Context.SameButCache.hasMoreRbspData_eq {c d : Context} (h : c.SameButCache d) (hc : c.Inv) (mem : Memory) :
    hasMoreRbspData mem d = hasMoreRbspData mem c := by
  have hr : d.remainingBits = c.remainingBits := by
    rw [← h.others]
    rfl
  unfold hasMoreRbspData
  rw [hr]
  dsimp only
  split
  · rfl
  split
  · rfl
  · rename_i hle
    rcases h.getBits_same hc mem (n := 1) (by omega) with ⟨hgc, hgd⟩ | ⟨b, t, e, hgc, hgd, -, -⟩
    · simp only [hgc, hgd]
    · rcases h.getBits_same hc mem (n := c.remainingBits.toNat) (by omega) with
        ⟨h2c, h2d⟩ | ⟨v, t2, e2, h2c, h2d, -, -⟩
      · simp only [hgc, hgd, h2c, h2d]
      · simp only [hgc, hgd, h2c, h2d]

/-! ### The commands -/

/-- Two runs of a command cannot be told apart: the same response, and registers that differ in `cache` alone. -/
inductive SameOutcome : Host.Outcome State Fault Refusal → Host.Outcome State Fault Refusal → Prop
  /-- both answer -/
  | next {t : State} {e : Context} (h : t.ctx.SameButCache e) : SameOutcome (.next t) (.next { t with ctx := e })

/-- The fetched bytes do not depend on the registers. -/
@[simp] theorem readerMem_withCtx (s : State) (d : Context) : { s with ctx := d }.readerMem = s.readerMem := rfl

theorem SameOutcome.of_next {t : State} {o : Host.Outcome State Fault Refusal} (h : SameOutcome (.next t) o) :
    ∃ e : Context, o = .next { t with ctx := e } ∧ t.ctx.SameButCache e := by
  cases h with
  | next h => exact ⟨_, rfl, h⟩

section Commands

variable {s : State} {d : Context}

theorem SameOutcome.respond (h : s.ctx.SameButCache d) (st : Status) (v : Value) :
    SameOutcome (.next (s.respond st v)) (.next ({ s with ctx := d }.respond st v)) :=
  .next (t := s.respond st v) h

theorem SameOutcome.commit {t e : Context} (h : t.SameButCache e) (v : Value) :
    SameOutcome (.next (s.commit t v)) (.next ({ s with ctx := d }.commit e v)) :=
  .next (t := s.commit t v) h

theorem Context.SameButCache.getBitsOp_same {bound : Nat} (h : s.ctx.SameButCache d) (hs : s.ctx.Inv)
    (hbound : bound ≤ 32) (n : BitCount) :
    SameOutcome (getBitsOp bound n s) (getBitsOp bound n { s with ctx := d }) := by
  unfold getBitsOp
  split
  · rename_i hn
    have hle := countInRange_le hbound hn
    rcases h.getBits_same hs s.readerMem hle with ⟨hgc, hgd⟩ | ⟨v, t, e, hgc, hgd, -, hte⟩
    · simp only [readerMem_withCtx, hgc, hgd]
      exact .respond h _ _
    · simp only [readerMem_withCtx, hgc, hgd]
      exact .commit hte _
  · exact .respond h _ _

theorem Context.SameButCache.peekBitsOp_same {bound : Nat} (h : s.ctx.SameButCache d) (hs : s.ctx.Inv)
    (hbound : bound ≤ 32) (n : BitCount) :
    SameOutcome (peekBitsOp bound n s) (peekBitsOp bound n { s with ctx := d }) := by
  unfold peekBitsOp
  split
  · rename_i hn
    have hle := countInRange_le hbound hn
    rcases h.getBits_same hs s.readerMem hle with ⟨hgc, hgd⟩ | ⟨v, t, e, hgc, hgd, -, -⟩ <;>
    · simp only [readerMem_withCtx, hgc, hgd]
      exact .respond h _ _
  · exact .respond h _ _

theorem Context.SameButCache.execSkip_same (h : s.ctx.SameButCache d) (n : BitCount) :
    SameOutcome (execSkip n s) (execSkip n { s with ctx := d }) := by
  unfold execSkip
  split
  · rcases h.refill_same s.readerMem n.toNat with ⟨hrc, hrd⟩ | ⟨t, e, hrc, hrd, hte⟩
    · simp only [readerMem_withCtx, hrc, hrd]
      exact .respond h _ _
    · simp only [readerMem_withCtx, hrc, hrd, hte.bits_eq]
      exact .commit (hte.withBits_same _) _
  · exact .respond h _ _

theorem Context.SameButCache.execSkipToNextByte_same (h : s.ctx.SameButCache d) :
    SameOutcome (execSkipToNextByte s) (execSkipToNextByte { s with ctx := d }) := by
  obtain ⟨w, rfl, hhistory⟩ := sameButCache_iff.1 h
  unfold execSkipToNextByte
  split
  · split
    · exact .commit ⟨rfl, hhistory⟩ _
    · exact .respond h _ _
  · exact .commit (h.withBits_same _) _

theorem Context.SameButCache.execGetUe_same (h : s.ctx.SameButCache d) (hs : s.ctx.Inv) :
    SameOutcome (execGetUe s) (execGetUe { s with ctx := d }) := by
  unfold execGetUe
  rcases h.ueDecode_same hs s.readerMem with ⟨st, huc, hud⟩ | ⟨k, t, e, huc, hud, hte⟩
  · simp only [readerMem_withCtx, huc, hud]
    exact .respond h _ _
  · simp only [readerMem_withCtx, huc, hud]
    exact .commit hte _

theorem Context.SameButCache.execGetSe_same (h : s.ctx.SameButCache d) (hs : s.ctx.Inv) :
    SameOutcome (execGetSe s) (execGetSe { s with ctx := d }) := by
  unfold execGetSe
  rcases h.ueDecode_same hs s.readerMem with ⟨st, huc, hud⟩ | ⟨k, t, e, huc, hud, hte⟩
  · simp only [readerMem_withCtx, huc, hud]
    exact .respond h _ _
  · simp only [readerMem_withCtx, huc, hud]
    exact .commit hte _

theorem Context.SameButCache.execScanForStartCodes_same (h : s.ctx.SameButCache d) (base : Address) (size : Word) :
    SameOutcome (execScanForStartCodes base size s) (execScanForStartCodes base size { s with ctx := d }) := by
  unfold execScanForStartCodes
  dsimp only
  split <;> exact .respond h _ _

theorem Context.SameButCache.execCeilLog2_same (h : s.ctx.SameButCache d) (v : Word) :
    SameOutcome (execCeilLog2 v s) (execCeilLog2 v { s with ctx := d }) := by
  unfold execCeilLog2
  split <;> exact .respond h _ _

/-- A query answers from the registers alone, and the two answers agree where its value does. -/
theorem Context.SameButCache.query_same (h : s.ctx.SameButCache d) {f : Context → Value} (hf : f d = f s.ctx) :
    SameOutcome (.next (s.respond .ok (f s.ctx))) (.next ({ s with ctx := d }.respond .ok (f d))) := by
  rw [hf]
  exact .respond h _ _

/-- No command shows what else `cache` holds. -/
theorem Context.SameButCache.exec_same (h : s.ctx.SameButCache d) (hs : s.ctx.Inv) (i : Instr) :
    SameOutcome (exec i s) (exec i { s with ctx := d }) := by
  cases i with
  | init base size => exact .commit (.refl _) _
  | skip n => exact h.execSkip_same n
  | skipToNextByte => exact h.execSkipToNextByte_same
  | getBitsUint8 n => exact h.getBitsOp_same hs (by omega) n
  | getBitsUint16 n => exact h.getBitsOp_same hs (by omega) n
  | getBitsUint32 n => exact h.getBitsOp_same hs (by omega) n
  | peekBitsUint8 n => exact h.peekBitsOp_same hs (by omega) n
  | peekBitsUint16 n => exact h.peekBitsOp_same hs (by omega) n
  | peekBitsUint32 n => exact h.peekBitsOp_same hs (by omega) n
  | getUe => exact h.execGetUe_same hs
  | getSe => exact h.execGetSe_same hs
  | isByteAligned => exact h.query_same (f := fun c => boolValue (c.bitsInCache == 0#6)) (by rw [← h.others])
  | getPositionBits => exact h.query_same (f := fun c => intValue c.positionBits) (by rw [← h.others]; rfl)
  | getRemainingBits => exact h.query_same (f := fun c => intValue c.remainingBits) (by rw [← h.others]; rfl)
  | getEpbCount => exact h.query_same (f := fun c => wordValue c.epbCount) (by rw [← h.others])
  | hasMoreRbspData =>
    exact h.query_same (f := fun c => boolValue (hasMoreRbspData s.readerMem c))
      (by simp only [h.hasMoreRbspData_eq hs])
  | scanForStartCodes base size => exact h.execScanForStartCodes_same base size
  | ceilLog2 v => exact h.execCeilLog2_same v

end Commands

end Sys2Proof.Machine
end

section
/-! A reader with no valid bit and no byte left, as reset leaves it (spec/10_state.md R40). -/

namespace Sys2Proof.Machine

theorem reset_deliverable (mem : Memory) : Context.reset.deliverable mem = [] := by
  unfold Context.deliverable
  rw [rawRest_nil (le_refl 0)]
  rfl

theorem refill_reset (mem : Memory) {n : Nat} (h1 : 1 ≤ n) (hn : n ≤ 32) : refill mem Context.reset n = none := by
  have hsome := refill_isSome (mem := mem) (t := Context.reset) hn
  rw [reset_deliverable, List.length_nil] at hsome
  exact Option.not_isSome_iff_eq_none.1 fun h => absurd (hsome.1 h) (by omega)

theorem getBits_reset (mem : Memory) {n : Nat} (h1 : 1 ≤ n) (hn : n ≤ 32) : getBits mem Context.reset n = none :=
  getBits_none.2 (refill_reset mem h1 hn)

theorem ueDecode_reset (mem : Memory) : ueDecode mem Context.reset = .error .insufficientData := by
  have hzeros : countZeros mem Context.reset = none := by
    unfold countZeros
    rw [countZerosLoop_succ, getBits_reset mem (le_refl 1) (by omega)]
  unfold ueDecode
  rw [hzeros]

theorem countInRange_of_le {bound : Nat} {n : BitCount} (h1 : 1 ≤ n.toNat) (hn : n.toNat ≤ bound) :
    countInRange bound n = true := by
  simp only [countInRange, h1, hn, decide_true, Bool.and_self]

section EmptyReader

variable {s : State} (hs : s.ctx = Context.reset)
include hs

theorem getBitsOp_reset {bound : Nat} (hbound : bound ≤ 32) {n : BitCount} (h1 : 1 ≤ n.toNat)
    (hn : n.toNat ≤ bound) :
    getBitsOp bound n s = .next (s.fail .insufficientData) := by
  unfold getBitsOp
  rw [if_pos (countInRange_of_le h1 hn), hs, getBits_reset _ h1 (hn.trans hbound)]

theorem peekBitsOp_reset {bound : Nat} (hbound : bound ≤ 32) {n : BitCount} (h1 : 1 ≤ n.toNat)
    (hn : n.toNat ≤ bound) :
    peekBitsOp bound n s = .next (s.fail .insufficientData) := by
  unfold peekBitsOp
  rw [if_pos (countInRange_of_le h1 hn), hs, getBits_reset _ h1 (hn.trans hbound)]

theorem execSkip_reset {n : BitCount} (h1 : 1 ≤ n.toNat) (hn : n.toNat ≤ 32) :
    execSkip n s = .next (s.fail .insufficientData) := by
  unfold execSkip
  rw [if_pos (countInRange_of_le h1 hn), hs, refill_reset _ h1 hn]

theorem execSkipToNextByte_reset : execSkipToNextByte s = .next (s.fail .insufficientData) := by
  unfold execSkipToNextByte
  rw [hs]
  rfl

theorem execGetUe_reset : execGetUe s = .next (s.fail .insufficientData) := by
  unfold execGetUe
  rw [hs, ueDecode_reset]

theorem execGetSe_reset : execGetSe s = .next (s.fail .insufficientData) := by
  unfold execGetSe
  rw [hs, ueDecode_reset]

/-- A query answers the value it has of the reset registers. -/
theorem query_reset {f : Context → Value} {v : Value} (hf : f Context.reset = v) :
    (.next (s.respond .ok (f s.ctx)) : Host.Outcome State Fault Refusal) = .next (s.respond .ok v) := by
  rw [hs, hf]

end EmptyReader

end Sys2Proof.Machine
end

section
/-! The obligations of spec/10_state.md: the invariant of the registers, who writes them, and reset. -/

namespace Sys2Proof.Proofs.Registers

open Sys2Proof.Machine

/-- Settles O15: the state is kept, or a response is added to it, or a command moved it. -/
theorem stepKeepsInvariant : Obligations.StepKeepsInvariant := by
  intro s t hs h
  have hs' (rest : List CommandBeat) : (s.withCommands rest).Inv := ⟨hs.ctx, hs.mem, hs.rewritten⟩
  rcases step_next_cases h with rfl | ⟨rest, rfl | ⟨i, hexec⟩⟩
  · exact hs
  · exact ⟨hs.ctx, hs.mem, hs.rewritten⟩
  · exact exec_inv (hs' rest) hexec

/-- Settles O55: the two runs of the command have the same outcome but for `cache`. -/
theorem cacheHistoryIsUnseen : Obligations.CacheHistoryIsUnseen :=
  fun i _ _ _ hs hsame h => (h ▸ hsame.exec_same hs i).of_next

/-- Settles O14: the moves of the other commands stay in the same buffer. -/
theorem onlyInitMovesTheBuffer : Obligations.OnlyInitMovesTheBuffer := by
  intro i s t h hchanged
  rcases exec_next_cases h with ⟨base, size, rfl, rfl⟩ | ⟨-, -, hmoves⟩
  · exact ⟨base, size, rfl, rfl, rfl⟩
  · obtain ⟨hbase, hsize⟩ := moves_same_buffer hmoves
    exact (hchanged.elim (· hbase) (· hsize)).elim

/-- Settles O17: no move lowers a counter. -/
theorem countersFallOnlyByInit : Obligations.CountersFallOnlyByInit := by
  intro i s t hs h hi
  rcases exec_next_cases h with ⟨base, size, rfl, -⟩ | ⟨-, -, hmoves⟩
  · exact absurd rfl (hi base size)
  · exact moves_counters_le hmoves hs

/-- Settles O19: the reader has no bit to deliver, so every read fails in its first refill, and the queries answer from
the zero registers. -/
theorem resetIsAnEmptyReader : Obligations.ResetIsAnEmptyReader := by
  intro s hs
  refine ⟨?_, ?_, ?_, query_reset hs (f := fun c => boolValue (c.bitsInCache == 0#6)) rfl⟩
  · simp only [List.forall_mem_cons, List.not_mem_nil, IsEmpty.forall_iff, implies_true, and_true]
    exact ⟨execSkipToNextByte_reset hs, execGetUe_reset hs, execGetSe_reset hs⟩
  · simp only [getForms, peekForms, List.cons_append, List.nil_append,
      List.forall_mem_cons, List.not_mem_nil, IsEmpty.forall_iff, implies_true, and_true]
    exact ⟨fun n h1 hn => execSkip_reset hs h1 hn,
      fun n h1 hn => getBitsOp_reset hs (by omega) h1 hn,
      fun n h1 hn => getBitsOp_reset hs (by omega) h1 hn,
      fun n h1 hn => getBitsOp_reset hs (by omega) h1 hn,
      fun n h1 hn => peekBitsOp_reset hs (by omega) h1 hn,
      fun n h1 hn => peekBitsOp_reset hs (by omega) h1 hn,
      fun n h1 hn => peekBitsOp_reset hs (by omega) h1 hn⟩
  · simp only [List.forall_mem_cons, List.not_mem_nil, IsEmpty.forall_iff, implies_true, and_true]
    exact ⟨query_reset hs (f := fun c => intValue c.positionBits) rfl,
      query_reset hs (f := fun c => intValue c.remainingBits) rfl,
      query_reset hs (f := fun c => wordValue c.epbCount) rfl,
      query_reset hs (f := fun c => boolValue (hasMoreRbspData s.readerMem c)) rfl⟩

/-- Settles O16: the registers after reset are those of INIT 0 0, and no byte and no address is listed. -/
theorem resetMeetsInvariant : Obligations.ResetMeetsInvariant :=
  ⟨initContext_inv 0#32 0#32, rfl, fun _ ha => absurd ha List.not_mem_nil⟩

/-- Settles O18: the three ways to the reset registers give the table of R40. -/
theorem resetRegisters : Obligations.ResetRegisters :=
  fun s => ⟨rfl, rfl, rfl, rfl, rfl, rfl, s.newUse.commit (initContext 0#32 0#32) 0#35, rfl, rfl⟩

end Sys2Proof.Proofs.Registers
end

section
/-!
GetBits, the gets and the peeks against the bits the reader can still deliver (spec/20_memory.md R54, spec/41_core.md
R126): with enough of them a read answers the first `n`, with fewer it fails.
-/

namespace Sys2Proof.Machine

theorem getBits_of_le_deliverable {mem : Memory} {c : Context} {n : Nat} (hn : n ≤ 32) (hc : c.Inv)
    (hle : n ≤ (c.deliverable mem).length) :
    ∃ t, getBits mem c n = some (bitsToNat ((c.deliverable mem).take n), t) ∧
      t.deliverable mem = (c.deliverable mem).drop n ∧ t.Inv ∧ t.dataBase = c.dataBase ∧ t.size = c.size := by
  obtain ⟨⟨v, t⟩, hread⟩ := Option.isSome_iff_exists.1 ((getBits_isSome hn).2 hle)
  obtain ⟨rfl, hrest⟩ := getBits_deliverable hn hc.bits_le hread
  obtain ⟨hinv, hbase, hsize⟩ := getBits_inv hn hc hread
  exact ⟨t, hread, hrest, hinv, hbase, hsize⟩

theorem getBits_of_deliverable_lt {mem : Memory} {c : Context} {n : Nat} (hn : n ≤ 32)
    (hlt : (c.deliverable mem).length < n) : getBits mem c n = none :=
  Option.not_isSome_iff_eq_none.1 fun h => absurd ((getBits_isSome hn).1 h) (by omega)

section LegalCount

variable {bound : Nat} {n : BitCount} {s : State} (h1 : 1 ≤ n.toNat) (hn : n.toNat ≤ bound)
include h1 hn

theorem getBitsOp_of_some {v : Nat} {t : Context} (h : getBits s.readerMem s.ctx n.toNat = some (v, t)) :
    getBitsOp bound n s = .next (s.commit t (natValue v)) := by
  unfold getBitsOp
  rw [if_pos (countInRange_of_le h1 hn), h]

theorem getBitsOp_of_none (h : getBits s.readerMem s.ctx n.toNat = none) :
    getBitsOp bound n s = .next (s.fail .insufficientData) := by
  unfold getBitsOp
  rw [if_pos (countInRange_of_le h1 hn), h]

theorem peekBitsOp_of_some {v : Nat} {t : Context} (h : getBits s.readerMem s.ctx n.toNat = some (v, t)) :
    peekBitsOp bound n s = .next (s.respond .ok (natValue v)) := by
  unfold peekBitsOp
  rw [if_pos (countInRange_of_le h1 hn), h]

theorem peekBitsOp_of_none (h : getBits s.readerMem s.ctx n.toNat = none) :
    peekBitsOp bound n s = .next (s.fail .insufficientData) := by
  unfold peekBitsOp
  rw [if_pos (countInRange_of_le h1 hn), h]

end LegalCount

/-- The three gets are one body with three bounds (R151 to R153). -/
theorem exec_getForms : ∀ p ∈ getForms, p.1 ≤ 32 ∧ ∀ n s, exec (p.2 n) s = getBitsOp p.1 n s := by
  simp only [getForms, List.forall_mem_cons, List.not_mem_nil, IsEmpty.forall_iff, implies_true, and_true]
  exact ⟨⟨by omega, fun _ _ => rfl⟩, ⟨by omega, fun _ _ => rfl⟩, ⟨by omega, fun _ _ => rfl⟩⟩

/-- The three peeks are one body with three bounds (R154 to R156). -/
theorem exec_peekForms : ∀ p ∈ peekForms, p.1 ≤ 32 ∧ ∀ n s, exec (p.2 n) s = peekBitsOp p.1 n s := by
  simp only [peekForms, List.forall_mem_cons, List.not_mem_nil, IsEmpty.forall_iff, implies_true, and_true]
  exact ⟨⟨by omega, fun _ _ => rfl⟩, ⟨by omega, fun _ _ => rfl⟩, ⟨by omega, fun _ _ => rfl⟩⟩

end Sys2Proof.Machine
end

section
/-!
Reading in two parts (spec/20_memory.md R55): Refill does not care whether the first `a` valid bits are still in the
window, so it commutes with their consumption.
-/

namespace Sys2Proof.Machine

/-- The registers with the top `a` valid bits of the window consumed, as GetBits leaves them (R150). -/
def Context.consume (c : Context) (a : Nat) : Context :=
  { c with bitsInCache := BitVec.ofNat 6 (c.bitsInCache.toNat - a) }

@[simp] theorem Context.consume_bits (c : Context) (a : Nat) :
    (c.consume a).bitsInCache.toNat = c.bitsInCache.toNat - a := bits_ofNat a

theorem Context.consume_consume (c : Context) (a b : Nat) : (c.consume a).consume b = c.consume (a + b) := by
  simp only [Context.consume, bits_ofNat, Nat.sub_sub]

/-- A push leaves the consumption of bits that were already valid as it is. -/
theorem pushByte_consume {c : Context} {a : Nat} (ha : a ≤ c.bitsInCache.toNat) (hc : c.bitsInCache.toNat < 32)
    (b : Byte) : pushByte (c.consume a) b = (pushByte c b).consume a := by
  have hbits : (c.consume a).bitsInCache + 8#6 = BitVec.ofNat 6 ((c.bitsInCache + 8#6).toNat - a) := by
    apply BitVec.eq_of_toNat_eq
    rw [bits_ofNat, bits_push hc, bits_push (by rw [Context.consume_bits]; omega), Context.consume_bits]
    omega
  simp only [pushByte, hbits]
  rfl

theorem Context.consume_countDrop (c : Context) (a : Nat) :
    Context.consume { c with epbCount := c.epbCount + 1#32 } a =
      { c.consume a with epbCount := (c.consume a).epbCount + 1#32 } := rfl

/-- Fetching does not look at the valid bits. -/
theorem fetchByte_consume (mem : Memory) (c : Context) (a : Nat) :
    fetchByte mem (c.consume a) = (fetchByte mem c).map fun p => (p.1, p.2.consume a) := by
  unfold fetchByte
  rw [apply_ite (Option.map _)]
  rfl

theorem pushNext_consume {mem : Memory} {c : Context} {a : Nat} (ha : a ≤ c.bitsInCache.toNat)
    (hc : c.bitsInCache.toNat < 32) :
    pushNext mem (c.consume a) = (pushNext mem c).map fun t => t.consume a := by
  unfold pushNext
  rw [fetchByte_consume]
  cases hfetch : fetchByte mem c with
  | none => rfl
  | some p =>
    obtain ⟨b, t⟩ := p
    obtain ⟨-, -, rfl⟩ := fetchByte_some.1 hfetch
    simp only [Option.map_some, show isEpb (c.consume a) b = isEpb c b from rfl]
    by_cases hepb : isEpb c b = true
    · rw [if_pos hepb, if_pos hepb, ← Context.consume_countDrop, fetchByte_consume]
      cases hfetch2 : fetchByte mem { c with bytePos := c.bytePos + 1#32, epbCount := c.epbCount + 1#32 } with
      | none => rfl
      | some p2 =>
        obtain ⟨b2, t2⟩ := p2
        obtain ⟨-, -, rfl⟩ := fetchByte_some.1 hfetch2
        refine congrArg some (pushByte_consume ?_ ?_ b2)
        exacts [ha, hc]
    · rw [if_neg hepb, if_neg hepb]
      refine congrArg some (pushByte_consume ?_ ?_ b)
      exacts [ha, hc]

/-- A refill that stops early is the beginning of a longer one. -/
theorem refill_of_refill {mem : Memory} {c t : Context} {a n : Nat} (han : a ≤ n) (hn : n ≤ 32)
    (h : refill mem c a = some t) : refill mem t n = refill mem c n := by
  refine refill_induct (han.trans hn) (motive := fun c t => refill mem t n = refill mem c n) (fun _ _ => rfl) ?_ h
  intro c u t hlt hu _ ih
  rw [ih, refill_unfold hn (t := c), if_pos (by omega), hu]

theorem refill_consume {mem : Memory} {c : Context} {a b : Nat} (hab : a + b ≤ 32) (ha : a ≤ c.bitsInCache.toNat) :
    refill mem (c.consume a) b = (refill mem c (a + b)).map fun t => t.consume a := by
  induction hk : a + b - c.bitsInCache.toNat using Nat.strong_induction_on generalizing c with
  | _ k ih =>
    rw [refill_unfold (by omega), refill_unfold hab, Context.consume_bits]
    by_cases hlt : c.bitsInCache.toNat < a + b
    · rw [if_pos (by omega), if_pos hlt, pushNext_consume ha (by omega)]
      cases hu : pushNext mem c with
      | none => rfl
      | some u =>
        obtain ⟨-, -, hmore, -⟩ := pushNext_spec hu
        have hbits := bits_push (b := c.bitsInCache) (by omega)
        rw [← hmore] at hbits
        exact ih _ (by omega) (by omega) rfl
    · rw [if_neg (by omega), if_neg hlt]
      rfl

/-- Reading `a` bits and then `b` bits leaves the registers that reading `a + b` bits leaves. -/
theorem getBits_getBits_ctx {mem : Memory} {c t u w : Context} {a b v x y : Nat} (hab : a + b ≤ 32)
    (hwhole : getBits mem c (a + b) = some (v, t)) (hfirst : getBits mem c a = some (x, u))
    (hsecond : getBits mem u b = some (y, w)) : w = t := by
  obtain ⟨r, hr, -, rfl⟩ := getBits_some hwhole
  obtain ⟨p, hp, -, rfl⟩ := getBits_some hfirst
  obtain ⟨q, hq, -, rfl⟩ := getBits_some hsecond
  obtain ⟨-, -, hge, -⟩ := refill_spec (by omega) hp
  have hq' : refill mem (p.consume a) b = some (r.consume a) := by
    rw [refill_consume hab hge, refill_of_refill (by omega) hab hp, hr]
    rfl
  obtain rfl : r.consume a = q := Option.some.inj (hq'.symm.trans hq)
  exact r.consume_consume a b

/-- Reading `a + b` bits is reading `a` and then `b`: the same registers at the end, and the value in two halves. -/
theorem getBits_getBits {mem : Memory} {c t : Context} {a b v : Nat} (hab : a + b ≤ 32) (hc : c.Inv)
    (h : getBits mem c (a + b) = some (v, t)) :
    ∃ u, getBits mem c a = some (v / 2 ^ b, u) ∧ getBits mem u b = some (v % 2 ^ b, t) := by
  have hle : a + b ≤ (c.deliverable mem).length := (getBits_isSome hab).1 (by rw [h]; rfl)
  obtain ⟨u, hfirst, hrest, hu, -⟩ := getBits_of_le_deliverable (mem := mem) (n := a) (by omega) hc (by omega)
  have hleb : b ≤ (u.deliverable mem).length := by
    rw [hrest, List.length_drop]
    omega
  obtain ⟨w, hsecond, -⟩ := getBits_of_le_deliverable (by omega) hu hleb
  have hvalue : bitsToNat ((u.deliverable mem).take b) + 2 ^ b * bitsToNat ((c.deliverable mem).take a) = v := by
    rw [(getBits_deliverable hab hc.bits_le h).1, List.take_add, bitsToNat_append, ← hrest, List.length_take,
      Nat.min_eq_left hleb]
    ring
  obtain ⟨hhigh, hlow⟩ := (Nat.div_mod_unique (Nat.two_pow_pos b)).2 ⟨hvalue, getBits_lt hsecond⟩
  rw [hhigh, hlow, ← getBits_getBits_ctx hab h hfirst hsecond]
  exact ⟨u, hfirst, hsecond⟩

end Sys2Proof.Machine
end

section
/-!
What a command can see of memory (spec/20_memory.md R53): the bytes of the live buffer, and a scan the bytes of the
buffer it names. Memories that agree there give the same outcome.
-/

namespace Sys2Proof.Machine

/-- Two memories hold the same bytes in the buffer `[base, base + size)`. -/
def AgreeOn (base : Address) (size : Word) (m m' : Memory) : Prop :=
  ∀ j < size.toNat, m'.read (byteAddress base j) = m.read (byteAddress base j)

/-- Two memories hold the same bytes in the buffer of a reader. -/
def Context.SeesSame (c : Context) (m m' : Memory) : Prop := AgreeOn c.dataBase c.size m m'

section Reads

variable {m m' : Memory} {c : Context}

theorem Context.SeesSame.of_same_buffer {t : Context} (h : c.SeesSame m m') (hbase : t.dataBase = c.dataBase)
    (hsize : t.size = c.size) : t.SeesSame m m' := by
  unfold Context.SeesSame
  rw [hbase, hsize]
  exact h

theorem Context.SeesSame.fetchByte_eq (h : c.SeesSame m m') : fetchByte m' c = fetchByte m c := by
  unfold fetchByte
  split
  · rfl
  · rename_i hlt
    rw [h _ (not_le.1 hlt)]

theorem Context.SeesSame.pushNext_eq (h : c.SeesSame m m') : pushNext m' c = pushNext m c := by
  unfold pushNext
  rw [h.fetchByte_eq]
  cases hfetch : fetchByte m c with
  | none => rfl
  | some p =>
    obtain ⟨-, -, hctx⟩ := fetchByte_some.1 hfetch
    have hnext : Context.SeesSame { p.2 with epbCount := p.2.epbCount + 1#32 } m m' :=
      h.of_same_buffer (by rw [hctx]) (by rw [hctx])
    simp only [hnext.fetchByte_eq]

theorem Context.SeesSame.refillLoop_eq (h : c.SeesSame m m') (n fuel : Nat) :
    refillLoop m' n fuel c = refillLoop m n fuel c := by
  induction fuel generalizing c with
  | zero => rfl
  | succ fuel ih =>
    unfold refillLoop
    rw [h.pushNext_eq]
    cases hpush : pushNext m c with
    | none => rfl
    | some t =>
      obtain ⟨hbase, hsize, -⟩ := pushNext_spec hpush
      simp only [ih (h.of_same_buffer hbase hsize)]

theorem Context.SeesSame.refill_eq (h : c.SeesSame m m') (n : Nat) : refill m' c n = refill m c n :=
  h.refillLoop_eq n n

theorem Context.SeesSame.getBits_eq (h : c.SeesSame m m') (n : Nat) : getBits m' c n = getBits m c n := by
  unfold getBits
  rw [h.refill_eq]

theorem Context.SeesSame.of_moves {t : Context} (h : c.SeesSame m m')
    (hmoves : Relation.ReflTransGen (Context.Moves m) c t) : t.SeesSame m m' :=
  h.of_same_buffer (moves_same_buffer hmoves).1 (moves_same_buffer hmoves).2

theorem Context.SeesSame.countZerosLoop_eq (h : c.SeesSame m m') (fuel i : Nat) :
    countZerosLoop m' fuel i c = countZerosLoop m fuel i c := by
  induction fuel generalizing c i with
  | zero => rfl
  | succ fuel ih =>
    rw [countZerosLoop_succ, countZerosLoop_succ, h.getBits_eq]
    cases hread : getBits m c 1 with
    | none => rfl
    | some p => simp only [ih (h.of_moves (.single (.read (by omega) hread)))]

theorem Context.SeesSame.ueDecode_eq (h : c.SeesSame m m') : ueDecode m' c = ueDecode m c := by
  unfold ueDecode countZeros
  rw [h.countZerosLoop_eq]
  cases hzeros : countZerosLoop m (c.readBound + 1) 0 c with
  | none => rfl
  | some p => simp only [ueRemainder, (h.of_moves (countZerosLoop_moves hzeros)).getBits_eq]

theorem Context.SeesSame.hasMoreRbspData_eq (h : c.SeesSame m m') : hasMoreRbspData m' c = hasMoreRbspData m c := by
  unfold hasMoreRbspData
  simp only [h.getBits_eq]

end Reads

/-! ### The scan -/

theorem AgreeOn.startCodeAt_eq {base : Address} {size : Word} {m m' : Memory} (h : AgreeOn base size m m') {p : Nat}
    (hp : p + 2 < size.toNat) : startCodeAt m' base p = startCodeAt m base p := by
  unfold startCodeAt
  rw [h p (by omega), h (p + 1) (by omega), h (p + 2) hp]

theorem AgreeOn.scanFrom_eq {base : Address} {size : Word} {m m' : Memory} (h : AgreeOn base size m m') {k p : Nat}
    (hk : p + k ≤ size.toNat - 2) : scanFrom m' base p k = scanFrom m base p k := by
  induction k generalizing p with
  | zero => rfl
  | succ k ih =>
    unfold scanFrom
    rw [h.startCodeAt_eq (by omega), ih (by omega)]

theorem AgreeOn.scan_eq {base : Address} {size : Word} {m m' : Memory} (h : AgreeOn base size m m') :
    scan m' base size = scan m base size := h.scanFrom_eq (by omega)

/-! ### The commands -/

/-- The machine with other buffer memory, as the host could have filled it. -/
def State.withMem (s : State) (m : Memory) : State := { s with mem := m }

@[simp] theorem State.withMem_ctx (s : State) (m : Memory) : (s.withMem m).ctx = s.ctx := rfl
@[simp] theorem State.withMem_mem (s : State) (m : Memory) : (s.withMem m).mem = m := rfl

/-- Two runs of a command, the second with `m` for its memory, cannot be told apart: the states they answer differ in
memory alone. -/
inductive SameButMem (m : Memory) : Host.Outcome State Fault Refusal → Host.Outcome State Fault Refusal → Prop
  /-- both answer -/
  | next (t : State) : SameButMem m (.next t) (.next (t.withMem m))

theorem SameButMem.of_next {m : Memory} {t : State} {o : Host.Outcome State Fault Refusal}
    (h : SameButMem m (.next t) o) : o = .next (t.withMem m) := by
  cases h
  rfl

section Commands

variable {s : State} {m : Memory} (h : s.ctx.SeesSame s.readerMem (s.withMem m).readerMem)

section LiveBuffer
include h

theorem getBitsOp_sameButMem (bound : Nat) (n : BitCount) :
    SameButMem m (getBitsOp bound n s) (getBitsOp bound n (s.withMem m)) := by
  unfold getBitsOp
  rw [State.withMem_ctx, h.getBits_eq]
  repeat' split
  all_goals exact .next _

theorem peekBitsOp_sameButMem (bound : Nat) (n : BitCount) :
    SameButMem m (peekBitsOp bound n s) (peekBitsOp bound n (s.withMem m)) := by
  unfold peekBitsOp
  rw [State.withMem_ctx, h.getBits_eq]
  repeat' split
  all_goals exact .next _

theorem execSkip_sameButMem (n : BitCount) : SameButMem m (execSkip n s) (execSkip n (s.withMem m)) := by
  unfold execSkip
  rw [State.withMem_ctx, h.refill_eq]
  repeat' split
  all_goals exact .next _

theorem execGetUe_sameButMem : SameButMem m (execGetUe s) (execGetUe (s.withMem m)) := by
  unfold execGetUe
  rw [State.withMem_ctx, h.ueDecode_eq]
  split <;> exact .next _

theorem execGetSe_sameButMem : SameButMem m (execGetSe s) (execGetSe (s.withMem m)) := by
  unfold execGetSe
  rw [State.withMem_ctx, h.ueDecode_eq]
  split <;> exact .next _

theorem execHasMoreRbspData_sameButMem :
    SameButMem m (execHasMoreRbspData s) (execHasMoreRbspData (s.withMem m)) := by
  unfold execHasMoreRbspData
  rw [State.withMem_ctx, h.hasMoreRbspData_eq]
  exact .next _

end LiveBuffer

theorem execSkipToNextByte_sameButMem :
    SameButMem m (execSkipToNextByte s) (execSkipToNextByte (s.withMem m)) := by
  unfold execSkipToNextByte
  rw [State.withMem_ctx]
  repeat' split
  all_goals exact .next _

theorem execScanForStartCodes_sameButMem {base : Address} {size : Word} (hscan : AgreeOn base size s.mem m) :
    SameButMem m (execScanForStartCodes base size s) (execScanForStartCodes base size (s.withMem m)) := by
  unfold execScanForStartCodes
  rw [State.withMem_mem, hscan.scan_eq]
  split <;> exact .next _

theorem execCeilLog2_sameButMem (v : Word) : SameButMem m (execCeilLog2 v s) (execCeilLog2 v (s.withMem m)) := by
  unfold execCeilLog2
  split <;> exact .next _

include h

/-- R53: a command sees of memory what the reader fetches in the live buffer, and a scan the buffer it names. -/
theorem exec_sameButMem (i : Instr)
    (hscan : ∀ base size, i = .scanForStartCodes base size → AgreeOn base size s.mem m) :
    SameButMem m (exec i s) (exec i (s.withMem m)) := by
  cases i with
  | init base size => exact .next _
  | skip n => exact execSkip_sameButMem h n
  | skipToNextByte => exact execSkipToNextByte_sameButMem
  | getBitsUint8 n => exact getBitsOp_sameButMem h 8 n
  | getBitsUint16 n => exact getBitsOp_sameButMem h 16 n
  | getBitsUint32 n => exact getBitsOp_sameButMem h 32 n
  | peekBitsUint8 n => exact peekBitsOp_sameButMem h 8 n
  | peekBitsUint16 n => exact peekBitsOp_sameButMem h 16 n
  | peekBitsUint32 n => exact peekBitsOp_sameButMem h 32 n
  | getUe => exact execGetUe_sameButMem h
  | getSe => exact execGetSe_sameButMem h
  | isByteAligned => exact .next _
  | getPositionBits => exact .next _
  | getRemainingBits => exact .next _
  | getEpbCount => exact .next _
  | hasMoreRbspData => exact execHasMoreRbspData_sameButMem h
  | scanForStartCodes base size => exact execScanForStartCodes_sameButMem (hscan base size rfl)
  | ceilLog2 v => exact execCeilLog2_sameButMem v

end Commands

end Sys2Proof.Machine
end

section
/-! What a store by the host changes (spec/20_memory.md R60, R61), in memory and in the bytes the reader fetches. -/

namespace Sys2Proof.Machine

theorem Memory.read_store_self {m : Memory} (a : Address) (b : Byte) (hm : m.wf = true) :
    Memory.read (Memory.store a.toNat b m) a = b := Memory.lookup_store_self b hm

theorem Memory.read_store_other {a x : Address} (h : x ≠ a) (b : Byte) (m : Memory) :
    Memory.read (Memory.store a.toNat b m) x = m.read x :=
  Memory.lookup_store_other b (fun e => h (BitVec.eq_of_toNat_eq e)) m

theorem Context.inBuffer_iff {c : Context} {a : Address} :
    c.inBuffer a = true ↔ (a - c.dataBase).toNat < c.size.toNat := by
  simp only [Context.inBuffer, decide_eq_true_eq]

/-- A store outside the live buffer is a change of memory and of nothing else: it is not recorded. -/
theorem State.hostStore_outside {s : State} {a : Address} (h : s.ctx.size.toNat ≤ (a - s.ctx.dataBase).toNat)
    (b : Byte) : s.hostStore a b = s.withMem (Memory.store a.toNat b s.mem) := by
  have hout : s.ctx.inBuffer a = false := by
    rw [← Bool.not_eq_true, Context.inBuffer_iff]
    omega
  unfold State.hostStore
  rw [hout]
  rfl

/-- An address the host rewrote is fetched as its free byte (log entry 5). -/
theorem State.readerMem_read_rewritten {s : State} (hs : s.mem.wf = true) {a : Address} (h : a ∈ s.rewritten) :
    s.readerMem.read a = Config.rewrittenByte s.responses.length a := by
  induction hl : s.rewritten generalizing s with
  | nil => exact absurd (hl ▸ h) List.not_mem_nil
  | cons x rest ih =>
    have htail : s.readerMem =
        Memory.store x.toNat (Config.rewrittenByte s.responses.length x) { s with rewritten := rest }.readerMem := by
      unfold State.readerMem
      rw [hl, List.foldr_cons]
    rw [htail]
    by_cases hx : a = x
    · subst hx
      exact Memory.read_store_self a _ (State.readerMem_wf hs)
    · rw [Memory.read_store_other hx]
      exact ih (s := { s with rewritten := rest }) hs ((List.mem_cons.1 (hl ▸ h)).resolve_left hx) rfl

/-- The reader fetches the same where memory is the same: the free bytes do not depend on memory. -/
theorem State.readerMem_withMem_read {s : State} {m : Memory} (hs : s.mem.wf = true) (hm : m.wf = true) {x : Address}
    (h : m.read x = s.mem.read x) : (s.withMem m).readerMem.read x = s.readerMem.read x := by
  by_cases hx : x ∈ s.rewritten
  · rw [State.readerMem_read_rewritten hs hx]
    exact State.readerMem_read_rewritten (s := s.withMem m) hm hx
  · rw [State.readerMem_read hx, ← h]
    exact State.readerMem_read (s := s.withMem m) hx

/-- An address outside a buffer is none of the buffer's byte addresses (R52). -/
theorem byteAddress_ne_of_outside {base a : Address} {size : Word} (h : size.toNat ≤ (a - base).toNat) {j : Nat}
    (hj : j < size.toNat) : byteAddress base j ≠ a := by
  rintro rfl
  have hsize := size.isLt
  have hsub : byteAddress base j - base = BitVec.ofNat 32 j := by
    unfold byteAddress
    exact add_sub_cancel_left _ _
  rw [hsub, BitVec.toNat_ofNat, Nat.mod_eq_of_lt (by omega)] at h
  omega

theorem agreeOn_store_outside {base a : Address} {size : Word} (h : size.toNat ≤ (a - base).toNat) (b : Byte)
    (m : Memory) : AgreeOn base size m (Memory.store a.toNat b m) :=
  fun _ hj => Memory.read_store_other (byteAddress_ne_of_outside h hj) b m

theorem State.hostStore_inv {s : State} (hs : s.Inv) (a : Address) (b : Byte) : (s.hostStore a b).Inv := by
  refine ⟨hs.ctx, Memory.wf_store a b hs.mem, fun x hx => ?_⟩
  rcases State.mem_hostStore_rewritten.1 hx with hold | ⟨rfl, hin⟩
  · exact hs.rewritten x hold
  · exact hin

end Sys2Proof.Machine
end

section
/-! The obligations of spec/20_memory.md: what reads deliver of memory, who writes it and what of it can be seen. -/

namespace Sys2Proof.Proofs.BufferMemory

open Sys2Proof.Machine

/-- Settles O28: GetBits takes the first `n` deliverable bits, and the get commits the copy it leaves. -/
theorem getDeliversStreamBits : Obligations.GetDeliversStreamBits := by
  intro p hp n s hs h1 hn
  obtain ⟨hbound, hexec⟩ := exec_getForms p hp
  refine ⟨fun hle => ?_, fun hlt => ?_⟩
  · obtain ⟨t, hread, hrest, hinv, hbase, hsize⟩ := getBits_of_le_deliverable (hn.trans hbound) hs hle
    exact ⟨_, (hexec n s).trans (getBitsOp_of_some h1 hn hread), hrest, rfl, hinv, hbase, hsize, rfl, rfl, rfl⟩
  · exact (hexec n s).trans (getBitsOp_of_none h1 hn (getBits_of_deliverable_lt (hn.trans hbound) hlt))

/-- Settles O29: GetBits takes the first `n` deliverable bits, and the peek drops the copy it leaves. -/
theorem peekShowsStreamBits : Obligations.PeekShowsStreamBits := by
  intro p hp n s hs h1 hn
  obtain ⟨hbound, hexec⟩ := exec_peekForms p hp
  refine ⟨fun hle => ?_, fun hlt => ?_⟩
  · obtain ⟨t, hread, -⟩ := getBits_of_le_deliverable (hn.trans hbound) hs hle
    exact (hexec n s).trans (peekBitsOp_of_some h1 hn hread)
  · exact (hexec n s).trans (peekBitsOp_of_none h1 hn (getBits_of_deliverable_lt (hn.trans hbound) hlt))

/-- Settles O32: GetBits of `a + b` bits is GetBits of `a` and then of `b` bits, all three from the unchanged buffer. -/
theorem splitReadsAgree : Obligations.SplitReadsAgree := by
  intro a b s hs hfixed ha hb hab hle
  have hmem : s.readerMem = s.mem := State.readerMem_of_fixed hfixed
  have hsum : (a + b).toNat = a.toNat + b.toNat := by
    rw [BitVec.toNat_add]
    omega
  rw [← hmem] at hle
  obtain ⟨⟨v, t⟩, hwhole⟩ := Option.isSome_iff_exists.1 ((getBits_isSome hab).2 hle)
  obtain ⟨u, hfirst, hsecond⟩ := getBits_getBits hab hs hwhole
  have hv := getBits_lt hwhole
  rw [← hsum] at hwhole
  have hsecond' (x : Value) : getBits (s.commit u x).readerMem u b.toNat = some (v % 2 ^ b.toNat, t) := by
    rw [State.readerMem_of_fixed (s := s.commit u x) hfixed, State.commit_mem, ← hmem]
    exact hsecond
  refine ⟨_, _, _, _, getBitsOp_of_some (by omega) (by omega) hwhole, getBitsOp_of_some ha (by omega) hfirst,
    getBitsOp_of_some hb (by omega) (hsecond' _), rfl, hv, rfl, ?_⟩
  rw [State.commit_responses, State.commit_responses, List.append_assoc]
  rfl

/-- Settles O51: outside the buffer a store is a change of memory that the buffer's bytes do not show. -/
theorem bytesOutsideTheBufferAreUnseen : Obligations.BytesOutsideTheBufferAreUnseen := by
  intro i s u a b hwf hout hscan hexec
  have hsees : s.ctx.SeesSame s.readerMem (s.withMem (Memory.store a.toNat b s.mem)).readerMem :=
    fun j hj => State.readerMem_withMem_read hwf (Memory.wf_store a b hwf) (agreeOn_store_outside hout b s.mem j hj)
  have hsame := exec_sameButMem hsees i fun base size hi => agreeOn_store_outside (hscan base size hi) b s.mem
  rw [hexec] at hsame
  rw [State.hostStore_outside hout]
  exact hsame.of_next

/-- Settles O13: a step keeps the state, adds a response, or runs a command, and none of them touches memory. -/
theorem memoryIsNeverWritten : Obligations.MemoryIsNeverWritten := by
  intro s t h
  have hmem : t.mem = s.mem := by
    rcases step_next_cases h with rfl | ⟨rest, rfl | ⟨i, hexec⟩⟩
    · rfl
    · rfl
    · rcases exec_next_cases hexec with ⟨base, size, -, rfl⟩ | ⟨hmem, -, -⟩
      · rfl
      · exact hmem
  exact ⟨hmem, fun a => by rw [hmem]⟩

/-- Settles O52: what a store does to memory are the store's own laws; the record grows by the address exactly where it
lies in the live buffer. -/
theorem hostStoreChangesOneByte : Obligations.HostStoreChangesOneByte := by
  intro s a b hs
  refine ⟨State.hostStore_inv hs a b, Memory.read_store_self a b hs.mem,
    fun x hx => Memory.read_store_other hx b s.mem, rfl, rfl, rfl, fun hout => ?_, fun hin x => ?_⟩
  · rw [State.hostStore_outside hout]
    rfl
  · rw [State.mem_hostStore_rewritten, Context.inBuffer_iff, and_iff_left hin, or_comm]

/-- Settles O53: after INIT no address is recorded, so the reader fetches from memory as the host's store left it. -/
theorem readerSeesTheStoredBytes : Obligations.ReaderSeesTheStoredBytes := by
  intro s a b base size hmem
  refine ⟨fun x hx => State.readerMem_read hx, _, rfl, ?_, fun x hx => ?_⟩
  · exact Memory.read_store_self a b hmem
  · exact Memory.read_store_other hx b s.mem

/-- Settles O54: INIT begins a new use with nothing recorded; every other command moves the registers in one buffer. -/
theorem onlyInitEndsABufferUse : Obligations.OnlyInitEndsABufferUse := by
  intro i s t h
  refine ⟨fun ⟨base, size, hi⟩ => ?_, fun hi => ?_⟩
  · subst hi
    cases h
    rfl
  · rcases exec_next_cases h with ⟨base, size, rfl, -⟩ | ⟨-, hrewritten, hmoves⟩
    · exact absurd rfl (hi base size)
    · obtain ⟨hbase, hsize⟩ := moves_same_buffer hmoves
      exact ⟨hrewritten, fun a => by simp only [Context.inBuffer, hbase, hsize]⟩

end Sys2Proof.Proofs.BufferMemory
end

section
/-!
The opcode map read in both directions (spec/30_encoding.md R81 to R87): the beats that decode to a command, and what
an accepted beat says of its own bits.
-/

namespace Sys2Proof

/-! ### From a command to its beats -/

/-- A format-N beat decodes to its command with the beat's own count (R83). -/
theorem decode_of_countRow {op : BitVec 8} {n : BitCount} {opa opb : Word} {row : OpcodeRow} {f : BitCount → Instr}
    (h : selectRow (cmdWord op n) = .ok row) (hf : ∀ beat, row.mnemonic.build beat = f (countField beat.cmd)) :
    decode ⟨cmdWord op n, opa, opb⟩ = .ok (f n) := by
  rw [decode_of_row (beat := ⟨cmdWord op n, opa, opb⟩) h, hf, countField_cmdWord]

/-- A beat of format Z, B or V decodes to what its row builds (R82, R84, R85). -/
theorem decode_of_zeroRow {op : BitVec 8} {opa opb : Word} {row : OpcodeRow}
    (h : selectRow (cmdWord op 0#6) = .ok row) :
    decode ⟨cmdWord op 0#6, opa, opb⟩ = .ok (row.mnemonic.build ⟨cmdWord op 0#6, opa, opb⟩) :=
  decode_of_row h

/-- A format-N command is read from its `cmd` alone, whatever `opa` and `opb` are (R83). -/
theorem decode_of_countBound {i : Instr} {bound : Nat} (h : i.countBound = some bound) (opa opb : Word) :
    decode ⟨(encode i).cmd, opa, opb⟩ = .ok i := by
  cases i with
  | skip n => exact decode_of_countRow (selectRow_skip n) fun _ => rfl
  | getBitsUint8 n => exact decode_of_countRow (selectRow_getBitsUint8 n) fun _ => rfl
  | getBitsUint16 n => exact decode_of_countRow (selectRow_getBitsUint16 n) fun _ => rfl
  | getBitsUint32 n => exact decode_of_countRow (selectRow_getBitsUint32 n) fun _ => rfl
  | peekBitsUint8 n => exact decode_of_countRow (selectRow_peekBitsUint8 n) fun _ => rfl
  | peekBitsUint16 n => exact decode_of_countRow (selectRow_peekBitsUint16 n) fun _ => rfl
  | peekBitsUint32 n => exact decode_of_countRow (selectRow_peekBitsUint32 n) fun _ => rfl
  | _ => cases h

theorem decode_encode (i : Instr) : decode (encode i) = .ok i := by
  cases i with
  | skip | getBitsUint8 | getBitsUint16 | getBitsUint32 | peekBitsUint8 | peekBitsUint16 | peekBitsUint32 =>
    exact decode_of_countBound rfl _ _
  | init base size => exact decode_of_zeroRow selectRow_init
  | skipToNextByte => exact decode_of_zeroRow selectRow_skipToNextByte
  | getUe => exact decode_of_zeroRow selectRow_getUe
  | getSe => exact decode_of_zeroRow selectRow_getSe
  | isByteAligned => exact decode_of_zeroRow selectRow_isByteAligned
  | getPositionBits => exact decode_of_zeroRow selectRow_getPositionBits
  | getRemainingBits => exact decode_of_zeroRow selectRow_getRemainingBits
  | getEpbCount => exact decode_of_zeroRow selectRow_getEpbCount
  | hasMoreRbspData => exact decode_of_zeroRow selectRow_hasMoreRbspData
  | scanForStartCodes base size => exact decode_of_zeroRow selectRow_scanForStartCodes
  | ceilLog2 v => exact decode_of_zeroRow selectRow_ceilLog2

/-! ### From an accepted beat to its command -/

/-- The match and mask columns of R87 follow from the opcode and the format. -/
theorem opcodeTable_columns : ∀ row ∈ opcodeTable,
    row.pattern = cmdWord (opcodeField row.pattern) 0#6 ∧
    row.mask = if row.format = .n then 0xFFFFFFC0#32 else 0xFFFFFFFF#32 := by
  decide

/-- A row builds commands of its own opcode, and only format N takes a count from the beat (R82 to R86). -/
theorem opcodeTable_build : ∀ row ∈ opcodeTable, ∀ beat : CommandBeat,
    opcodeOf (row.mnemonic.build beat) = opcodeField row.pattern ∧
    (row.mnemonic.build beat).count = if row.format = .n then countField beat.cmd else 0#6 := by
  intro row hrow beat
  fin_cases hrow <;> exact ⟨rfl, rfl⟩

/-- An accepted beat's `cmd` is the one its command encodes to (R87). -/
theorem encode_cmd_of_decode {beat : CommandBeat} {i : Instr} (h : decode beat = .ok i) :
    (encode i).cmd = beat.cmd := by
  obtain ⟨row, hrow, hsel, rfl⟩ := decode_ok h
  obtain ⟨hpattern, hmask⟩ := opcodeTable_columns row hrow
  obtain ⟨hop, hcount⟩ := opcodeTable_build row hrow beat
  rw [encode_cmd, hop, hcount]
  rw [hmask, hpattern] at hsel
  split at hsel
  · rename_i hn
    rw [if_pos hn]
    exact cmdWord_of_masked hsel
  · rename_i hn
    rw [if_neg hn, ← hsel]
    exact BitVec.and_allOnes

theorem Mnemonic.build_eq_init {m : Mnemonic} {beat : CommandBeat} {base size : Word}
    (h : m.build beat = .init base size) : base = beat.opa ∧ size = beat.opb := by
  cases m <;> cases h
  exact ⟨rfl, rfl⟩

theorem Mnemonic.build_eq_scanForStartCodes {m : Mnemonic} {beat : CommandBeat} {base size : Word}
    (h : m.build beat = .scanForStartCodes base size) : base = beat.opa ∧ size = beat.opb := by
  cases m <;> cases h
  exact ⟨rfl, rfl⟩

theorem Mnemonic.build_eq_ceilLog2 {m : Mnemonic} {beat : CommandBeat} {v : Word}
    (h : m.build beat = .ceilLog2 v) : v = beat.opa := by
  cases m <;> cases h
  rfl

/-! ### Reserved encodings -/

theorem opcode_toNat_of_decode {beat : CommandBeat} {i : Instr} (h : decode beat = .ok i) :
    (beat.cmd >>> 24).toNat = (opcodeOf i).toNat := by
  have hop : opcodeField beat.cmd = opcodeOf i := by
    rw [← encode_cmd_of_decode h]
    exact (Laws.EncodeFields.cmdWord_fields _ _).1
  rw [← hop, opcodeField, BitVec.extractLsb'_toNat, BitVec.toNat_ushiftRight, Nat.shiftRight_eq_div_pow]
  have := beat.cmd.isLt
  omega

/-- The opcodes of format N (R83, R87). -/
def countOpcodes : List Nat := [0x02, 0x08, 0x09, 0x0A, 0x0C, 0x0D, 0x0E]

/-- The opcodes of formats Z, B and V (R82, R84, R85, R87). -/
def zeroOpcodes : List Nat := [0x01, 0x03, 0x10, 0x11, 0x20, 0x21, 0x22, 0x23, 0x24, 0x30, 0x31]

/-- A command has an opcode of format N, or it has one of the other formats and its `n` field is zero (R81). -/
theorem opcodeOf_formats (i : Instr) :
    (opcodeOf i).toNat ∈ countOpcodes ∨ (opcodeOf i).toNat ∈ zeroOpcodes ∧ i.count = 0#6 := by
  cases i with
  | skip | getBitsUint8 | getBitsUint16 | getBitsUint32 | peekBitsUint8 | peekBitsUint16 | peekBitsUint32 =>
    exact .inl (by simp [opcodeOf, countOpcodes])
  | _ => exact .inr ⟨by simp [opcodeOf, zeroOpcodes], rfl⟩

theorem countOpcodes_disjoint : ∀ op ∈ countOpcodes, op ∉ zeroOpcodes := by decide

theorem opcode_mem_of_decode {beat : CommandBeat} {i : Instr} (h : decode beat = .ok i) :
    (beat.cmd >>> 24).toNat ∈ countOpcodes ++ zeroOpcodes := by
  rw [opcode_toNat_of_decode h, List.mem_append]
  exact (opcodeOf_formats i).imp_right And.left

/-- An accepted beat has zeros in `cmd[23:6]` (R83). -/
theorem reserved_zero_of_decode {beat : CommandBeat} {i : Instr} (h : decode beat = .ok i) :
    beat.cmd.extractLsb' 6 18 = 0#18 := by
  rw [← encode_cmd_of_decode h]
  exact (Laws.EncodeFields.cmdWord_fields _ _).2.1

/-- An accepted beat of format Z, B or V has zeros in `cmd[23:0]` (R82, R84, R85). -/
theorem low_zero_of_decode {beat : CommandBeat} {i : Instr} (h : decode beat = .ok i)
    (hop : (beat.cmd >>> 24).toNat ∈ zeroOpcodes) : beat.cmd.extractLsb' 0 24 = 0#24 := by
  rw [opcode_toNat_of_decode h] at hop
  have hcount : i.count = 0#6 := by
    rcases opcodeOf_formats i with hn | ⟨-, hcount⟩
    · exact absurd hop (countOpcodes_disjoint _ hn)
    · exact hcount
  rw [← encode_cmd_of_decode h, encode_cmd, hcount, ← append_zero24]
  exact BitVec.extractLsb'_append_eq_right

end Sys2Proof
end

section
/-! The answers to a beat: ERR_ILLEGAL to what spells no command (spec/30_encoding.md R88 to R90), and one response to
every beat (R92). -/

namespace Sys2Proof.Machine

theorem step_of_not_decoded {s : State} {beat : CommandBeat} {rest : List CommandBeat}
    (hport : s.commands = beat :: rest) (h : ∀ i, decode beat ≠ .ok i) :
    step s = .next ((s.withCommands rest).fail .illegal) := by
  rw [step_cons hport]
  cases hdecode : decode beat with
  | error e => exact acceptBeat_error hdecode _
  | ok i => exact absurd hdecode (h i)

/-! ### The range of the bit count -/

theorem getBitsOp_of_not_inRange {bound : Nat} {n : BitCount} (h : countInRange bound n = false) (s : State) :
    getBitsOp bound n s = .next (s.fail .illegal) := by
  unfold getBitsOp
  rw [h]
  rfl

theorem peekBitsOp_of_not_inRange {bound : Nat} {n : BitCount} (h : countInRange bound n = false) (s : State) :
    peekBitsOp bound n s = .next (s.fail .illegal) := by
  unfold peekBitsOp
  rw [h]
  rfl

theorem execSkip_of_not_inRange {n : BitCount} (h : countInRange 32 n = false) (s : State) :
    execSkip n s = .next (s.fail .illegal) := by
  unfold execSkip
  rw [h]
  rfl

/-- A command that is not well formed is answered ERR_ILLEGAL: `wf` of a format-N command is the range check its meaning
makes, and `wf` of any other command is true. -/
theorem exec_of_not_wf {i : Instr} (h : i.wf = false) (s : State) : exec i s = .next (s.fail .illegal) := by
  cases i with
  | skip n => exact execSkip_of_not_inRange h s
  | getBitsUint8 n => exact getBitsOp_of_not_inRange h s
  | getBitsUint16 n => exact getBitsOp_of_not_inRange h s
  | getBitsUint32 n => exact getBitsOp_of_not_inRange h s
  | peekBitsUint8 n => exact peekBitsOp_of_not_inRange h s
  | peekBitsUint16 n => exact peekBitsOp_of_not_inRange h s
  | peekBitsUint32 n => exact peekBitsOp_of_not_inRange h s
  | _ => exact Bool.noConfusion h

theorem wf_eq_false_of_count {i : Instr} {bound : Nat} (hbound : i.countBound = some bound)
    (h : i.count.toNat = 0 ∨ bound < i.count.toNat) : i.wf = false := by
  simp only [Instr.wf, hbound, Bool.and_eq_false_iff, decide_eq_false_iff_not]
  omega

theorem step_of_count_out_of_range {i : Instr} {bound : Nat} (hbound : i.countBound = some bound) {s : State}
    {opa opb : Word} {rest : List CommandBeat} (hport : s.commands = ⟨(encode i).cmd, opa, opb⟩ :: rest)
    (h : i.count.toNat = 0 ∨ bound < i.count.toNat) : step s = .next ((s.withCommands rest).fail .illegal) := by
  rw [step_cons hport, acceptBeat_ok (decode_of_countBound hbound opa opb),
    exec_of_not_wf (wf_eq_false_of_count hbound h)]

/-! ### One response -/

/-- An outcome that adds one response to those of `s` and takes no beat; the response has value 0 unless it is OK
(R92, R94). -/
def AnswersOnce (s : State) (o : Host.Outcome State Fault Refusal) : Prop :=
  ∃ (t : State) (r : Response), o = .next t ∧ t.responses = s.responses ++ [r] ∧ t.commands = s.commands ∧
    (r.status ≠ .ok → r.value = 0#35)

theorem Answer.answersOnce {s : State} {o : Host.Outcome State Fault Refusal} (h : Answer s o) : AnswersOnce s o := by
  cases h with
  | failed st _ => exact ⟨_, _, rfl, State.fail_responses s st, rfl, fun _ => rfl⟩
  | looked v => exact ⟨_, _, rfl, State.respond_responses s .ok v, rfl, fun h => absurd rfl h⟩
  | committed t v => exact ⟨_, _, rfl, State.commit_responses s t v, rfl, fun h => absurd rfl h⟩
  | started base size => exact ⟨_, _, rfl, State.commit_responses s.newUse _ _, rfl, fun h => absurd rfl h⟩

theorem acceptBeat_answersOnce (beat : CommandBeat) (s : State) : AnswersOnce s (acceptBeat beat s) := by
  cases hdecode : decode beat with
  | error e =>
    rw [acceptBeat_error hdecode]
    exact (Answer.failed .illegal (by decide)).answersOnce
  | ok i =>
    rw [acceptBeat_ok hdecode]
    exact (exec_answer i s).answersOnce

end Sys2Proof.Machine
end

section
/-!
Exponential-Golomb codes against the bits the reader can still deliver (spec/43_exp_golomb.md): GET_UE in front of
`z` zeros, a `1` and `z` more bits takes them all, and the bits of R95 spell the number they were made from.
-/

namespace Sys2Proof.Machine

/-! ### The budget of single-bit reads -/

theorem rawFrom_length (mem : Memory) (base : Address) (p count : Nat) :
    (rawFrom mem base p count).length = count := by
  induction count generalizing p with
  | zero => rfl
  | succ count ih => rw [rawFrom, List.length_cons, ih]

/-- The stripper adds no byte (R122). -/
theorem strip_length_le (a b : Byte) (js : Bool) (l : List Byte) : (strip a b js l).length ≤ l.length := by
  induction l generalizing a b js with
  | nil => exact le_refl 0
  | cons x rest ih =>
    rw [strip]
    split
    · exact (ih a b true).trans (Nat.le_succ _)
    · exact Nat.succ_le_succ (ih b x false)

theorem flatMap_byteBits_length (l : List Byte) : (l.flatMap byteBits).length = 8 * l.length := by
  simp [List.length_flatMap, byteBits_length, mul_comm]

/-- No more bits can be delivered than the budget allows (R126, R263). -/
theorem deliverable_length_le (mem : Memory) (c : Context) : (c.deliverable mem).length ≤ c.readBound := by
  have hstrip := strip_length_le (c.cache.extractLsb' 0 8) c.firstByte false (c.rawRest mem)
  rw [Context.rawRest, rawFrom_length] at hstrip
  unfold Context.deliverable Context.readBound
  rw [List.length_append, windowBits_length, flatMap_byteBits_length, Context.rawRest]
  omega

/-! ### The code GET_UE takes -/

theorem getBits_one {mem : Memory} {c : Context} {bit : Bool} {rest : List Bool} (hc : c.Inv)
    (h : c.deliverable mem = bit :: rest) :
    ∃ t, getBits mem c 1 = some (bit.toNat, t) ∧ t.deliverable mem = rest ∧ t.Inv := by
  obtain ⟨t, hread, hrest, ht, -⟩ := getBits_of_le_deliverable (mem := mem) (n := 1) (by omega) hc (by simp [h])
  rw [h] at hread hrest
  exact ⟨t, by simpa [bitsToNat] using hread, hrest, ht⟩

/-- With fuel for them, the loop counts the zeros up to the first `1` and stands behind it. -/
theorem countZerosLoop_of_deliverable {mem : Memory} {c : Context} {fuel i z : Nat} {rest : List Bool} (hc : c.Inv)
    (hfuel : z < fuel) (h : c.deliverable mem = List.replicate z false ++ true :: rest) :
    ∃ t, countZerosLoop mem fuel i c = some (i + z, t) ∧ t.deliverable mem = rest ∧ t.Inv := by
  induction z generalizing fuel i c with
  | zero =>
    obtain ⟨fuel, rfl⟩ := Nat.exists_eq_succ_of_ne_zero hfuel.ne'
    obtain ⟨t, hread, hrest, ht⟩ := getBits_one hc h
    exact ⟨t, by rw [countZerosLoop_succ, hread]; rfl, hrest, ht⟩
  | succ z ih =>
    obtain ⟨fuel, rfl⟩ := Nat.exists_eq_succ_of_ne_zero (Nat.ne_zero_of_lt hfuel)
    obtain ⟨u, hread, hu, huinv⟩ := getBits_one hc h
    obtain ⟨t, hloop, hrest, ht⟩ := ih (i := i + 1) huinv (Nat.lt_of_succ_lt_succ hfuel) hu
    refine ⟨t, ?_, hrest, ht⟩
    rw [countZerosLoop_succ, hread, Nat.add_comm z 1, ← Nat.add_assoc]
    exact hloop

/-- The budget is fuel enough, so the zeros before the first deliverable `1` are always counted. -/
theorem countZeros_of_deliverable {mem : Memory} {c : Context} {z : Nat} {rest : List Bool} (hc : c.Inv)
    (h : c.deliverable mem = List.replicate z false ++ true :: rest) :
    ∃ t, countZeros mem c = some (z, t) ∧ t.deliverable mem = rest ∧ t.Inv := by
  have hlen := deliverable_length_le mem c
  rw [h, List.length_append, List.length_replicate, List.length_cons] at hlen
  obtain ⟨t, hloop, hrest⟩ := countZerosLoop_of_deliverable (fuel := c.readBound + 1) (i := 0) hc (by omega) h
  rw [Nat.zero_add] at hloop
  exact ⟨t, hloop, hrest⟩

theorem ueRemainder_of_deliverable {mem : Memory} {c : Context} {tail rest : List Bool} (hc : c.Inv)
    (hlen : tail.length ≤ 32) (h : c.deliverable mem = tail ++ rest) :
    ∃ t, ueRemainder mem c tail.length = some (bitsToNat tail, t) ∧ t.deliverable mem = rest := by
  unfold ueRemainder
  split
  · rename_i hnil
    obtain rfl := List.length_eq_zero_iff.1 hnil
    exact ⟨c, rfl, h⟩
  · obtain ⟨t, hread, hrest, -⟩ := getBits_of_le_deliverable (mem := mem) hlen hc (by simp [h])
    rw [h, List.take_left] at hread
    rw [h, List.drop_left] at hrest
    exact ⟨t, hread, hrest⟩

/-- R170, R171: in front of `z` zeros, a `1` and `z` more bits. -/
theorem ueDecode_of_deliverable {mem : Memory} {c : Context} {z : Nat} {tail rest : List Bool} (hc : c.Inv)
    (hz : z ≤ 32) (htail : tail.length = z) (h : c.deliverable mem = List.replicate z false ++ true :: (tail ++ rest)) :
    ∃ t, ueDecode mem c = .ok (ueCode z (bitsToNat tail), t) ∧ t.deliverable mem = rest := by
  subst htail
  obtain ⟨u, hzeros, hu, huinv⟩ := countZeros_of_deliverable hc h
  obtain ⟨t, hremainder, hrest⟩ := ueRemainder_of_deliverable huinv hz hu
  refine ⟨t, ?_, hrest⟩
  have hmax : ¬ Config.ueMaxZeros < tail.length := not_lt.2 hz
  unfold ueDecode
  simp only [hzeros, if_neg hmax, hremainder]

/-! ### The code of a number -/

theorem bitsToNat_natBits {v width : Nat} (h : v < 2 ^ width) : bitsToNat (natBits v width) = v := by
  have hbits := bitsToNat_testBit v 0 width
  rw [Nat.zero_add, Nat.shiftRight_zero, Nat.mod_eq_of_lt h] at hbits
  exact hbits

/-- R95, R170: the code of `k` has at most 31 zeros, and GET_UE reads `k` from it. -/
theorem ueDecode_of_ueBits {mem : Memory} {c : Context} {k : Nat} {rest : List Bool} (hc : c.Inv)
    (hk : k ≤ 2 ^ 32 - 2) (h : c.deliverable mem = ueBits k ++ rest) :
    ∃ t, ueDecode mem c = .ok (BitVec.ofNat 32 k, t) ∧ t.deliverable mem = rest := by
  unfold ueBits at h
  have hle : 2 ^ Nat.log2 (k + 1) ≤ k + 1 := Nat.log2_self_le (Nat.succ_ne_zero k)
  have hlt : k + 1 < 2 ^ (Nat.log2 (k + 1) + 1) := Nat.lt_log2_self
  have hz : Nat.log2 (k + 1) < 32 := (Nat.log2_lt (Nat.succ_ne_zero k)).2 (by omega)
  generalize Nat.log2 (k + 1) = z at *
  have hvalue : bitsToNat (natBits (k + 1 - 2 ^ z) z) = k + 1 - 2 ^ z := bitsToNat_natBits (by omega)
  obtain ⟨t, hdecode, hrest⟩ := ueDecode_of_deliverable (tail := natBits (k + 1 - 2 ^ z) z) (rest := rest) hc hz.le
    (by simp [natBits]) (by rw [h, List.append_assoc, List.cons_append])
  have hcode : 2 ^ z - 1 + (k + 1 - 2 ^ z) = k := by
    have := Nat.two_pow_pos z
    omega
  rw [hvalue, ueCode, hcode] at hdecode
  exact ⟨t, hdecode, hrest⟩

theorem execGetUe_of_ok {s : State} {k : Word} {t : Context} (h : ueDecode s.readerMem s.ctx = .ok (k, t)) :
    execGetUe s = .next (s.commit t (wordValue k)) := by
  unfold execGetUe
  rw [h]

theorem execGetSe_of_ok {s : State} {k : Word} {t : Context} (h : ueDecode s.readerMem s.ctx = .ok (k, t)) :
    execGetSe s = .next (s.commit t (wordValue (BitVec.ofInt 32 (zigZag k.toNat)))) := by
  unfold execGetSe
  rw [h]

/-- A 32-bit number is placed in the response value as it is (R94). -/
theorem wordValue_ofNat {k : Nat} (hk : k < 2 ^ 32) : wordValue (BitVec.ofNat 32 k) = BitVec.ofNat 35 k := by
  apply BitVec.eq_of_toNat_eq
  simp only [wordValue, BitVec.toNat_setWidth, BitVec.toNat_ofNat, Nat.mod_eq_of_lt hk]

/-! ### The zig-zag mapping -/

/-- R172: the mapping takes the code of a signed number back to it. -/
theorem zigZag_zigZagCode (v : Int) : zigZag (zigZagCode v) = v := by
  unfold zigZag zigZagCode
  split <;> split <;> omega

theorem zigZagCode_le {v : Int} {bound : Nat} (hlow : -bound ≤ v) (hhigh : v ≤ bound) :
    zigZagCode v ≤ 2 * bound := by
  unfold zigZagCode
  split <;> omega

end Sys2Proof.Machine
end

section
/-! The obligations of spec/30_encoding.md: beats and commands, illegal beats, responses and the Exp-Golomb codes. -/

namespace Sys2Proof.Proofs.Encoding

open Sys2Proof.Machine

/-- Settles O1: each command's `cmd` selects its own row, which takes the operands back from the beat. -/
theorem decodeEncodeRoundTrip : Obligations.DecodeEncodeRoundTrip := decode_encode

/-- Settles O41: GET_UE reads `k` from the code of `k`, and 32 bits hold it. -/
theorem unsignedCodesRoundTrip : Obligations.UnsignedCodesRoundTrip := by
  intro s k rest hs hk hbits
  obtain ⟨t, hdecode, hrest⟩ := ueDecode_of_ueBits hs hk hbits
  refine ⟨_, execGetUe_of_ok hdecode, ?_, hrest⟩
  rw [State.commit_responses, wordValue_ofNat (by omega)]

/-- Settles O42: GET_SE reads the zig-zag code as GET_UE does, and the mapping takes it back to the number. -/
theorem signedCodesRoundTrip : Obligations.SignedCodesRoundTrip := by
  intro s v rest hs hlow hhigh hbits
  have hk : zigZagCode v ≤ 2 ^ 32 - 2 := zigZagCode_le (bound := 2 ^ 31 - 1) (by omega) (by omega)
  obtain ⟨t, hdecode, hrest⟩ := ueDecode_of_ueBits hs hk hbits
  refine ⟨_, execGetSe_of_ok hdecode, ?_, hrest⟩
  have hcode : (BitVec.ofNat 32 (zigZagCode v)).toNat = zigZagCode v := by
    rw [BitVec.toNat_ofNat, Nat.mod_eq_of_lt (by omega)]
  rw [State.commit_responses, hcode, zigZag_zigZagCode]
  rfl

/-- Settles O2: the command comes from the row the beat selects, and that row's mnemonic takes the operands from the
beat. -/
theorem acceptedBeatIsItsCommandsBeat : Obligations.AcceptedBeatIsItsCommandsBeat := by
  intro beat i h
  obtain ⟨row, -, -, hbuild⟩ := decode_ok h
  exact ⟨encode_cmd_of_decode h,
    fun _ _ hi => Mnemonic.build_eq_init (hbuild.symm.trans hi),
    fun _ _ hi => Mnemonic.build_eq_scanForStartCodes (hbuild.symm.trans hi),
    fun _ hi => Mnemonic.build_eq_ceilLog2 (hbuild.symm.trans hi)⟩

/-- Settles O5: the opcode of an accepted beat lies outside every reserved range. -/
theorem reservedOpcodeIsIllegal : Obligations.ReservedOpcodeIsIllegal := by
  intro s beat rest hport hreserved
  refine step_of_not_decoded hport fun i hdecode => ?_
  have hop := opcode_mem_of_decode hdecode
  simp only [countOpcodes, zeroOpcodes, List.cons_append, List.nil_append, List.mem_cons, List.not_mem_nil,
    or_false] at hop
  dsimp only at hreserved
  generalize (beat.cmd >>> 24).toNat = op at hop hreserved
  omega

/-- Settles O6: an accepted beat is zero where its format demands it. -/
theorem reservedBitIsIllegal : Obligations.ReservedBitIsIllegal := by
  intro s beat rest hport hreserved
  refine step_of_not_decoded hport fun i hdecode => ?_
  rcases hreserved with ⟨-, hbit⟩ | ⟨hop, hbit⟩
  · exact hbit (reserved_zero_of_decode hdecode)
  · exact hbit (low_zero_of_decode hdecode hop)

/-- Settles O7: the beat decodes to its command, whose meaning checks the count first. -/
theorem countOutOfRangeIsIllegal : Obligations.CountOutOfRangeIsIllegal := by
  unfold Obligations.CountOutOfRangeIsIllegal
  simp only [List.forall_mem_cons, List.not_mem_nil, IsEmpty.forall_iff, implies_true, and_true]
  refine ⟨?_, ?_, ?_, ?_, ?_, ?_, ?_⟩
  · exact fun n _ _ _ _ => step_of_count_out_of_range (i := .skip n) rfl
  · exact fun n _ _ _ _ => step_of_count_out_of_range (i := .getBitsUint8 n) rfl
  · exact fun n _ _ _ _ => step_of_count_out_of_range (i := .getBitsUint16 n) rfl
  · exact fun n _ _ _ _ => step_of_count_out_of_range (i := .getBitsUint32 n) rfl
  · exact fun n _ _ _ _ => step_of_count_out_of_range (i := .peekBitsUint8 n) rfl
  · exact fun n _ _ _ _ => step_of_count_out_of_range (i := .peekBitsUint16 n) rfl
  · exact fun n _ _ _ _ => step_of_count_out_of_range (i := .peekBitsUint32 n) rfl

/-- Settles O10: accepting the beat on the port answers once, whether or not it decodes. -/
theorem everyCommandAnswersOnce : Obligations.EveryCommandAnswersOnce := by
  intro s beat rest hport
  rw [step_cons hport]
  exact acceptBeat_answersOnce beat (s.withCommands rest)

/-- Settles O3: each `cmd` selects the row of its opcode, whatever the operand fields are. -/
theorem formatsSpellTheirCommands : Obligations.FormatsSpellTheirCommands := by
  unfold Obligations.FormatsSpellTheirCommands
  simp only [List.forall_mem_cons, List.not_mem_nil, IsEmpty.forall_iff, implies_true, and_true, append_zero24]
  refine ⟨⟨?_, ?_, ?_, ?_, ?_, ?_, ?_, ?_⟩, ⟨?_, ?_, ?_, ?_, ?_, ?_, ?_⟩, ?_, ?_, ?_⟩
  · exact fun _ _ => decode_of_zeroRow selectRow_skipToNextByte
  · exact fun _ _ => decode_of_zeroRow selectRow_getUe
  · exact fun _ _ => decode_of_zeroRow selectRow_getSe
  · exact fun _ _ => decode_of_zeroRow selectRow_isByteAligned
  · exact fun _ _ => decode_of_zeroRow selectRow_getPositionBits
  · exact fun _ _ => decode_of_zeroRow selectRow_getRemainingBits
  · exact fun _ _ => decode_of_zeroRow selectRow_getEpbCount
  · exact fun _ _ => decode_of_zeroRow selectRow_hasMoreRbspData
  · exact fun n => decode_of_countBound (i := .skip n) rfl
  · exact fun n => decode_of_countBound (i := .getBitsUint8 n) rfl
  · exact fun n => decode_of_countBound (i := .getBitsUint16 n) rfl
  · exact fun n => decode_of_countBound (i := .getBitsUint32 n) rfl
  · exact fun n => decode_of_countBound (i := .peekBitsUint8 n) rfl
  · exact fun n => decode_of_countBound (i := .peekBitsUint16 n) rfl
  · exact fun n => decode_of_countBound (i := .peekBitsUint32 n) rfl
  · exact fun _ _ => decode_of_zeroRow selectRow_init
  · exact fun _ _ => decode_of_zeroRow selectRow_scanForStartCodes
  · exact fun _ _ => decode_of_zeroRow selectRow_ceilLog2

end Sys2Proof.Proofs.Encoding
end

section
/-! The search of CEIL_LOG2 (spec/40_ceil_log2.md) finds Mathlib's ceiling logarithm `Nat.clog`, which carries the
least-power property of R110. -/

namespace Sys2Proof.Machine

/-- The upward search stops at the ceiling logarithm when that lies between its first and its last candidate. -/
theorem leastPowerFrom_eq_clog {v r0 fuel : Nat} (hlow : r0 ≤ Nat.clog 2 v) (hhigh : Nat.clog 2 v ≤ r0 + fuel) :
    leastPowerFrom v r0 fuel = Nat.clog 2 v := by
  induction fuel generalizing r0 with
  | zero => exact Nat.le_antisymm hlow hhigh
  | succ fuel ih =>
    have hreach : v ≤ 2 ^ r0 ↔ Nat.clog 2 v ≤ r0 := (Nat.clog_le_iff_le_pow Nat.one_lt_two).symm
    unfold leastPowerFrom
    split
    · next hle => exact Nat.le_antisymm hlow (hreach.1 hle)
    · next hgt => exact ih (by omega) (by omega)

/-- A 32-bit input needs no power above `2^32`. -/
theorem clog_word_le (v : Word) : Nat.clog 2 v.toNat ≤ 32 :=
  Nat.clog_le_of_le_pow v.isLt.le

theorem ceilLog2_eq_clog (v : Word) : ceilLog2 v = Nat.clog 2 v.toNat :=
  leastPowerFrom_eq_clog (Nat.zero_le _) (clog_word_le v)

/-- R111: the input 0 is illegal. -/
theorem execCeilLog2_zero (s : State) : execCeilLog2 0#32 s = .next (s.fail .illegal) := rfl

theorem execCeilLog2_of_pos {v : Word} (hv : 1 ≤ v.toNat) (s : State) :
    execCeilLog2 v s = .next (s.respond .ok (natValue (Nat.clog 2 v.toNat))) := by
  have hne : v ≠ 0#32 := by
    rintro rfl
    exact absurd hv (by decide)
  rw [execCeilLog2, if_neg hne, ceilLog2_eq_clog]

end Sys2Proof.Machine
end

section
/-! The obligation of spec/40_ceil_log2.md: what CEIL_LOG2 answers. -/

namespace Sys2Proof.Proofs.CeilLog2

open Sys2Proof.Machine

/-- Settles O48: the answer is the ceiling logarithm, whose power reaches `v` while no smaller power does. -/
theorem ceilLog2IsTheLeastPower : Obligations.CeilLog2IsTheLeastPower := by
  intro v s
  constructor
  · intro hv
    exact ⟨Nat.clog 2 v.toNat, clog_word_le v, Nat.le_pow_clog Nat.one_lt_two _,
      fun _ => Nat.pow_lt_of_lt_clog, execCeilLog2_of_pos hv s⟩
  · rintro rfl
    exact execCeilLog2_zero s

end Sys2Proof.Proofs.CeilLog2
end

section
/-!
Refill's iterations read forwards (spec/41_core.md R121 to R123): which one pushes, which one drops and which one is
exhausted; and the aligned read of one byte, which is a single iteration.
-/

namespace Sys2Proof.Machine

/-! ### One iteration of Refill -/

theorem byteAddress_toNat (base : Address) (p : Word) : byteAddress base p.toNat = base + p := by
  rw [byteAddress, BitVec.ofNat_toNat, BitVec.setWidth_eq]

theorem isEpb_iff {c : Context} {b : Byte} :
    isEpb c b = true ↔ b = 0x03#8 ∧ c.firstByte = 0x00#8 ∧ c.cache.extractLsb' 0 8 = 0x00#8 := by
  simp only [isEpb, Config.epbByte, Bool.and_eq_true, beq_iff_eq, and_assoc]

section Iteration

variable {mem : Memory} {c : Context} {n : Nat}

theorem fetchByte_of_lt (h : c.bytePos.toNat < c.size.toNat) :
    fetchByte mem c = some (mem.read (c.dataBase + c.bytePos), { c with bytePos := c.bytePos + 1#32 }) :=
  fetchByte_some.2 ⟨h, by rw [byteAddress_toNat], rfl⟩

theorem pushNext_of_no_byte (h : c.size.toNat ≤ c.bytePos.toNat) : pushNext mem c = none := by
  rw [pushNext, fetchByte_none.2 h]

theorem pushNext_of_push (hlt : c.bytePos.toNat < c.size.toNat)
    (h : isEpb c (mem.read (c.dataBase + c.bytePos)) = false) :
    pushNext mem c =
      some (pushByte { c with bytePos := c.bytePos + 1#32 } (mem.read (c.dataBase + c.bytePos))) := by
  rw [pushNext, fetchByte_of_lt hlt]
  simp only [h, Bool.false_eq_true, if_false]

/-- A dropped byte: the iteration is the unchecked fetch of the byte after it (R123). -/
theorem pushNext_of_isEpb (hlt : c.bytePos.toNat < c.size.toNat)
    (h : isEpb c (mem.read (c.dataBase + c.bytePos)) = true) :
    pushNext mem c =
      (fetchByte mem { c with bytePos := c.bytePos + 1#32, epbCount := c.epbCount + 1#32 }).map
        fun p => pushByte p.2 p.1 := by
  rw [pushNext, fetchByte_of_lt hlt]
  simp only [h, if_true]
  cases fetchByte mem { c with bytePos := c.bytePos + 1#32, epbCount := c.epbCount + 1#32 } <;> rfl

theorem pushNext_of_last_epb (hlast : c.bytePos.toNat + 1 = c.size.toNat)
    (h : isEpb c (mem.read (c.dataBase + c.bytePos)) = true) : pushNext mem c = none := by
  have hlt : c.bytePos.toNat < c.size.toNat := by omega
  rw [pushNext_of_isEpb hlt h, fetchByte_none.2 (by simp only [bytePos_succ hlt]; omega)]
  rfl

theorem pushNext_of_drop (hlt : c.bytePos.toNat + 1 < c.size.toNat)
    (h : isEpb c (mem.read (c.dataBase + c.bytePos)) = true) :
    pushNext mem c =
      some (pushByte { c with bytePos := c.bytePos + 2#32, epbCount := c.epbCount + 1#32 }
        (mem.read (c.dataBase + (c.bytePos + 1#32)))) := by
  have hfirst : c.bytePos.toNat < c.size.toNat := by omega
  rw [pushNext_of_isEpb hfirst h, fetchByte_of_lt (by simp only [bytePos_succ hfirst]; exact hlt), Option.map_some]
  simp only [BitVec.add_assoc]
  rfl

/-! ### Refill's loop -/

theorem refill_of_enough (hn : n ≤ 32) (h : n ≤ c.bitsInCache.toNat) : refill mem c n = some c := by
  rw [refill_unfold hn, if_neg (not_lt.2 h)]

theorem refill_of_pushNext_none (hn : n ≤ 32) (h : c.bitsInCache.toNat < n) (hpush : pushNext mem c = none) :
    refill mem c n = none := by
  rw [refill_unfold hn, if_pos h, hpush]

theorem refill_of_pushNext_some {t : Context} (hn : n ≤ 32) (h : c.bitsInCache.toNat < n)
    (hpush : pushNext mem c = some t) : refill mem c n = refill mem t n := by
  rw [refill_unfold hn, if_pos h, hpush]

end Iteration

/-! ### An aligned read of one byte -/

theorem window_low (c : Context) : c.window.toNat % 2 ^ 8 = c.firstByte.toNat := by
  rw [← BitVec.toNat_setWidth, Context.window, BitVec.setWidth_append_eq_right]

/-- From an aligned state GetBits of 8 bits is one iteration of Refill, and its value is the byte pushed. -/
theorem getBits_eight_of_aligned {mem : Memory} {c u : Context} (aligned : c.bitsInCache = 0#6)
    (h : pushNext mem c = some u) :
    getBits mem c 8 = some (u.firstByte.toNat, { u with bitsInCache := c.bitsInCache }) := by
  have hbits : u.bitsInCache = 8#6 := by
    obtain ⟨-, -, hbits, -⟩ := pushNext_spec h
    rw [hbits, aligned]
    rfl
  have hrefill : refill mem c 8 = some u := by
    rw [refill_of_pushNext_some (by omega) (by rw [aligned]; decide) h]
    exact refill_of_enough (by omega) (by rw [hbits]; decide)
  simp only [getBits, hrefill]
  rw [Nat.and_two_pow_sub_one_eq_mod, hbits, aligned]
  exact congrArg (fun v => some (v, { u with bitsInCache := 0#6 })) (window_low u)

theorem natValue_toNat (b : Byte) : natValue b.toNat = b.setWidth 35 := BitVec.ofNat_toNat 35 b

/-- GET_BITS_UINT8 8 in an aligned state answers the byte pushed. -/
theorem getBitsOp_eight_of_aligned {s : State} {u : Context} (aligned : s.ctx.bitsInCache = 0#6)
    (h : pushNext s.readerMem s.ctx = some u) :
    getBitsOp 8 8#6 s =
      .next (s.commit { u with bitsInCache := s.ctx.bitsInCache } (u.firstByte.setWidth 35)) := by
  rw [← natValue_toNat]
  exact getBitsOp_of_some (by decide) (by decide) (getBits_eight_of_aligned aligned h)

end Sys2Proof.Machine
end

section
/-!
The commands SKIP and SKIP_TO_NEXT_BYTE case by case (spec/41_core.md R125, R127), and where SKIP, the gets and the
peeks fail.
-/

namespace Sys2Proof.Machine

/-! ### SKIP -/

theorem countInRange_eq_false {bound : Nat} {n : BitCount} (h : n.toNat = 0 ∨ bound < n.toNat) :
    countInRange bound n = false := by
  simp only [countInRange, Bool.and_eq_false_iff, decide_eq_false_iff_not]
  omega

section LegalCount

variable {n : BitCount} {s : State} (h1 : 1 ≤ n.toNat) (hn : n.toNat ≤ 32)
include h1 hn

theorem execSkip_of_refill_some {t : Context} (h : refill s.readerMem s.ctx n.toNat = some t) :
    execSkip n s = .next (s.commit { t with bitsInCache := t.bitsInCache - n } 0#35) := by
  unfold execSkip
  rw [if_pos (countInRange_of_le h1 hn), h]

theorem execSkip_of_refill_none (h : refill s.readerMem s.ctx n.toNat = none) :
    execSkip n s = .next (s.fail .insufficientData) := by
  unfold execSkip
  rw [if_pos (countInRange_of_le h1 hn), h]

/-- SKIP commits the copy GetBits leaves, without its value (R125). -/
theorem execSkip_of_getBits_some {v : Nat} {t : Context} (h : getBits s.readerMem s.ctx n.toNat = some (v, t)) :
    execSkip n s = .next (s.commit t 0#35) := by
  obtain ⟨u, hu, -, -⟩ := getBits_some h
  obtain ⟨v', hread⟩ := getBits_of_skip hn hu
  obtain ⟨-, rfl⟩ := Prod.mk.inj (Option.some.inj (hread.symm.trans h))
  exact execSkip_of_refill_some h1 hn hu

theorem execSkip_of_getBits_none (h : getBits s.readerMem s.ctx n.toNat = none) :
    execSkip n s = .next (s.fail .insufficientData) :=
  execSkip_of_refill_none h1 hn (getBits_none.1 h)

end LegalCount

/-- SKIP and GET_BITS_UINT32 of one count fail alike or commit the same copy (R125). -/
theorem execSkip_getBitsOp (n : BitCount) (s : State) :
    (∃ st, execSkip n s = .next (s.fail st) ∧ getBitsOp 32 n s = .next (s.fail st)) ∨
    ∃ t v, execSkip n s = .next (s.commit t 0#35) ∧ getBitsOp 32 n s = .next (s.commit t v) := by
  by_cases hn : 1 ≤ n.toNat ∧ n.toNat ≤ 32
  · obtain ⟨h1, hn⟩ := hn
    cases hread : getBits s.readerMem s.ctx n.toNat with
    | none => exact .inl ⟨_, execSkip_of_getBits_none h1 hn hread, getBitsOp_of_none h1 hn hread⟩
    | some p => exact .inr ⟨p.2, _, execSkip_of_getBits_some h1 hn hread, getBitsOp_of_some h1 hn hread⟩
  · have hout : countInRange 32 n = false := countInRange_eq_false (by omega)
    exact .inl ⟨_, execSkip_of_not_inRange hout s, getBitsOp_of_not_inRange hout s⟩

/-! ### SKIP_TO_NEXT_BYTE -/

theorem execSkipToNextByte_of_aligned {s : State} (h : s.ctx.bitsInCache = 0#6)
    (hlt : s.ctx.bytePos.toNat < s.ctx.size.toNat) :
    execSkipToNextByte s = .next (s.commit { s.ctx with bytePos := s.ctx.bytePos + 1#32 } 0#35) := by
  rw [execSkipToNextByte, if_pos h, if_pos hlt]

theorem execSkipToNextByte_of_end {s : State} (h : s.ctx.bitsInCache = 0#6)
    (hend : s.ctx.size.toNat ≤ s.ctx.bytePos.toNat) :
    execSkipToNextByte s = .next (s.fail .insufficientData) := by
  rw [execSkipToNextByte, if_pos h, if_neg (not_lt.2 hend)]

theorem execSkipToNextByte_of_midByte {s : State} (h : s.ctx.bitsInCache ≠ 0#6) :
    execSkipToNextByte s = .next (s.commit { s.ctx with bitsInCache := 0#6 } 0#35) := by
  rw [execSkipToNextByte, if_neg h]

/-- R127: the history of the stripper stays. -/
theorem execSkipToNextByte_history {s t : State} (h : execSkipToNextByte s = .next t) :
    t.ctx.firstByte = s.ctx.firstByte ∧ t.ctx.cache = s.ctx.cache ∧ t.ctx.epbCount = s.ctx.epbCount := by
  by_cases aligned : s.ctx.bitsInCache = 0#6
  · by_cases hlt : s.ctx.bytePos.toNat < s.ctx.size.toNat
    · cases (execSkipToNextByte_of_aligned aligned hlt).symm.trans h
      exact ⟨rfl, rfl, rfl⟩
    · cases (execSkipToNextByte_of_end aligned (not_lt.1 hlt)).symm.trans h
      exact ⟨rfl, rfl, rfl⟩
  · cases (execSkipToNextByte_of_midByte aligned).symm.trans h
    exact ⟨rfl, rfl, rfl⟩

/-! ### Failures -/

/-- Where SKIP, the gets and the peeks fail: out of the range of their count, and where GetBits is exhausted. -/
theorem exec_readForms_fail : ∀ p ∈ (32, Instr.skip) :: getForms ++ peekForms, p.1 ≤ 32 ∧
    ∀ (n : BitCount) (s : State),
      (countInRange p.1 n = false → exec (p.2 n) s = .next (s.fail .illegal)) ∧
      (1 ≤ n.toNat → n.toNat ≤ p.1 → getBits s.readerMem s.ctx n.toNat = none →
        exec (p.2 n) s = .next (s.fail .insufficientData)) := by
  intro p hp
  rcases List.mem_append.1 hp with hp | hp
  · rcases List.mem_cons.1 hp with rfl | hp
    · exact ⟨le_refl 32, fun n s => ⟨fun hout => execSkip_of_not_inRange hout s, execSkip_of_getBits_none⟩⟩
    · obtain ⟨hbound, hexec⟩ := exec_getForms p hp
      refine ⟨hbound, fun n s => ?_⟩
      rw [hexec]
      exact ⟨fun hout => getBitsOp_of_not_inRange hout s, getBitsOp_of_none⟩
  · obtain ⟨hbound, hexec⟩ := exec_peekForms p hp
    refine ⟨hbound, fun n s => ?_⟩
    rw [hexec]
    exact ⟨fun hout => peekBitsOp_of_not_inRange hout s, peekBitsOp_of_none⟩

/-- A failure has not added an OK response. -/
theorem fail_responses_ne_ok {s : State} {st : Status} (hst : st ≠ .ok) (v : Value) :
    (s.fail st).responses ≠ s.responses ++ [⟨.ok, v⟩] := by
  rw [State.fail_responses]
  intro h
  simp only [List.append_cancel_left_eq, List.cons.injEq, Response.mk.injEq, and_true] at h
  exact hst h.1

end Sys2Proof.Machine
end

section
/-!
Facts about the registers that a read keeps, lifted once to every command that moves the registers by reads alone: all
but INIT and SKIP_TO_NEXT_BYTE.
-/

namespace Sys2Proof.Machine

/-- A property of the registers that every read of at most 32 bits keeps. It need not be kept by all of
`Context.Moves`: an aligned SKIP_TO_NEXT_BYTE steps over a byte the stripper has not seen. -/
def KeptByReads (mem : Memory) (P : Context → Prop) : Prop :=
  ∀ {n v : Nat} {c t : Context}, n ≤ 32 → getBits mem c n = some (v, t) → P c → P t

/-! ### Exponential-Golomb codes -/

section Decoder

variable {mem : Memory} {P : Context → Prop} (hP : KeptByReads mem P) {c t : Context} (hc : P c)
include hP hc

theorem KeptByReads.of_countZerosLoop {fuel i j : Nat} (h : countZerosLoop mem fuel i c = some (j, t)) : P t := by
  induction fuel generalizing i c with
  | zero => cases h
  | succ fuel ih =>
    rw [countZerosLoop_succ] at h
    split at h
    · cases h
    · rename_i b u hread
      have hu := hP (by omega) hread hc
      split at h
      · cases h
        exact hu
      · exact ih (c := u) hu h

theorem KeptByReads.of_ueRemainder {i v : Nat} (hi : i ≤ 32) (h : ueRemainder mem c i = some (v, t)) : P t := by
  unfold ueRemainder at h
  split at h
  · cases h
    exact hc
  · exact hP hi h hc

theorem KeptByReads.of_ueDecode {k : Word} (h : ueDecode mem c = .ok (k, t)) : P t := by
  unfold ueDecode at h
  split at h
  · cases h
  · rename_i i u hzeros
    have hu := hP.of_countZerosLoop hc hzeros
    split at h
    · cases h
    · rename_i hmax
      split at h
      · cases h
      · rename_i hrest
        cases h
        exact hP.of_ueRemainder hu (not_lt.1 hmax) hrest

end Decoder

/-! ### The commands -/

section Commands

variable {s t : State}

theorem peekBitsOp_ctx {bound : Nat} {n : BitCount} (h : peekBitsOp bound n s = .next t) : t.ctx = s.ctx := by
  unfold peekBitsOp at h
  repeat' split at h
  all_goals
    cases h
    rfl

theorem execScanForStartCodes_ctx {base : Address} {size : Word} (h : execScanForStartCodes base size s = .next t) :
    t.ctx = s.ctx := by
  unfold execScanForStartCodes at h
  split at h <;>
  · cases h
    rfl

theorem execCeilLog2_ctx {v : Word} (h : execCeilLog2 v s = .next t) : t.ctx = s.ctx := by
  unfold execCeilLog2 at h
  split at h <;>
  · cases h
    rfl

variable {P : Context → Prop} (hP : KeptByReads s.readerMem P) (hs : P s.ctx)
include hP hs

theorem KeptByReads.of_getBitsOp {bound : Nat} (hbound : bound ≤ 32) {n : BitCount}
    (h : getBitsOp bound n s = .next t) : P t.ctx := by
  unfold getBitsOp at h
  split at h
  · rename_i hn
    split at h
    · cases h
      exact hs
    · rename_i hread
      cases h
      exact hP (countInRange_le hbound hn) hread hs
  · cases h
    exact hs

/-- SKIP leaves what GET_BITS_UINT32 leaves. -/
theorem KeptByReads.of_execSkip {n : BitCount} (h : execSkip n s = .next t) : P t.ctx := by
  rcases execSkip_getBitsOp n s with ⟨st, hskip, -⟩ | ⟨c, v, hskip, hget⟩
  · cases hskip.symm.trans h
    exact hs
  · cases hskip.symm.trans h
    exact hP.of_getBitsOp (t := s.commit c v) hs (le_refl 32) hget

theorem KeptByReads.of_execGetUe (h : execGetUe s = .next t) : P t.ctx := by
  unfold execGetUe at h
  split at h
  · cases h
    exact hs
  · rename_i hdecode
    cases h
    exact hP.of_ueDecode hs hdecode

theorem KeptByReads.of_execGetSe (h : execGetSe s = .next t) : P t.ctx := by
  unfold execGetSe at h
  split at h
  · cases h
    exact hs
  · rename_i hdecode
    cases h
    exact hP.of_ueDecode hs hdecode

/-- Every command but INIT and SKIP_TO_NEXT_BYTE moves the registers by reads alone. -/
theorem KeptByReads.of_exec {i : Instr} (hinit : ∀ base size, i ≠ .init base size) (hskip : i ≠ .skipToNextByte)
    (h : exec i s = .next t) : P t.ctx := by
  cases i with
  | init base size => exact absurd rfl (hinit base size)
  | skip n => exact hP.of_execSkip hs h
  | skipToNextByte => exact absurd rfl hskip
  | getBitsUint8 n => exact hP.of_getBitsOp hs (by omega) h
  | getBitsUint16 n => exact hP.of_getBitsOp hs (by omega) h
  | getBitsUint32 n => exact hP.of_getBitsOp hs (by omega) h
  | peekBitsUint8 n | peekBitsUint16 n | peekBitsUint32 n => exact (peekBitsOp_ctx h).symm ▸ hs
  | getUe => exact hP.of_execGetUe hs h
  | getSe => exact hP.of_execGetSe hs h
  | isByteAligned | getPositionBits | getRemainingBits | getEpbCount | hasMoreRbspData =>
    cases h
    exact hs
  | scanForStartCodes base size => exact (execScanForStartCodes_ctx h).symm ▸ hs
  | ceilLog2 v => exact (execCeilLog2_ctx h).symm ▸ hs

end Commands

end Sys2Proof.Machine
end

section
/-!
The stripper as the fold of spec/41_core.md R128 over the raw bytes: which bytes the fold lets through, that reads keep
the registers in agreement with it, and how the window and the bytes left continue what was pushed.
-/

namespace Sys2Proof.Machine

/-! ### The fold -/

/-- Where R128's fold starts. -/
def StripFold.start : StripFold := ⟨0xFF#8, 0xFF#8, false, 0⟩

theorem StripFold.run_eq (l : List Byte) : StripFold.run l = l.foldl StripFold.next StripFold.start := rfl

/-- The pushed bytes of `l` when the fold starts from `f`. -/
def StripFold.pushed (f : StripFold) (l : List Byte) : List Byte := strip f.a f.b f.js l

theorem StripFold.next_of_drop {f : StripFold} {x : Byte} (hjs : f.js = false)
    (h : x = 0x03#8 ∧ f.b = 0x00#8 ∧ f.a = 0x00#8) : f.next x = { f with js := true, drops := f.drops + 1 } := by
  obtain ⟨hx, hb, ha⟩ := h
  simp [StripFold.next, hjs, hx, hb, ha]

theorem StripFold.next_of_push {f : StripFold} {x : Byte}
    (h : f.js = true ∨ ¬(x = 0x03#8 ∧ f.b = 0x00#8 ∧ f.a = 0x00#8)) :
    f.next x = { f with a := f.b, b := x, js := false } := by
  unfold StripFold.next
  rw [if_neg]
  simp only [Bool.and_eq_true, Bool.not_eq_true', beq_iff_eq]
  rintro ⟨⟨⟨hjs, hx⟩, hb⟩, ha⟩
  rcases h with h | h
  · exact absurd (hjs.symm.trans h) (by decide)
  · exact h ⟨hx, hb, ha⟩

/-- A byte is dropped and counted, or pushed. -/
theorem StripFold.next_cases (f : StripFold) (x : Byte) :
    ((f.next x).js = true ∧ (f.next x).drops = f.drops + 1 ∧ ∀ l, f.pushed (x :: l) = (f.next x).pushed l) ∨
    ((f.next x).js = false ∧ (f.next x).b = x ∧ (f.next x).drops = f.drops ∧
      ∀ l, f.pushed (x :: l) = x :: (f.next x).pushed l) := by
  unfold StripFold.next StripFold.pushed
  split
  · rename_i hdrop
    refine .inl ⟨rfl, rfl, fun l => ?_⟩
    rw [strip, if_pos hdrop]
  · rename_i hpush
    refine .inr ⟨rfl, rfl, rfl, fun l => ?_⟩
    rw [strip, if_neg hpush]

theorem StripFold.pushed_append (f : StripFold) (l r : List Byte) :
    f.pushed (l ++ r) = f.pushed l ++ (l.foldl StripFold.next f).pushed r := by
  induction l generalizing f with
  | nil => rfl
  | cons x l ih =>
    rw [List.cons_append, List.foldl_cons]
    rcases f.next_cases x with ⟨-, -, hpushed⟩ | ⟨-, -, -, hpushed⟩
    · rw [hpushed, hpushed, ih]
    · rw [hpushed, hpushed, ih, List.cons_append]

/-- Every byte is pushed or counted as a drop. -/
theorem StripFold.length_pushed_add_drops (f : StripFold) (l : List Byte) :
    (f.pushed l).length + (l.foldl StripFold.next f).drops = l.length + f.drops := by
  induction l generalizing f with
  | nil => rfl
  | cons x l ih =>
    have hrest := ih (f.next x)
    rw [List.foldl_cons, List.length_cons]
    rcases f.next_cases x with ⟨-, hdrops, hpushed⟩ | ⟨-, -, hdrops, hpushed⟩
    · rw [hpushed]
      omega
    · rw [hpushed, List.length_cons]
      omega

/-- Where the last byte is a push, it is the last pushed byte and the fold holds it in `b`. -/
theorem StripFold.pushed_eq_concat {f : StripFold} {l : List Byte} (hl : l ≠ [])
    (hjs : (l.foldl StripFold.next f).js = false) :
    ∃ before, f.pushed l = before ++ [(l.foldl StripFold.next f).b] := by
  obtain rfl | ⟨l, x, rfl⟩ := List.eq_nil_or_concat l
  · exact absurd rfl hl
  · rw [List.concat_eq_append, List.foldl_append, List.foldl_cons, List.foldl_nil] at hjs ⊢
    refine ⟨f.pushed l, ?_⟩
    rcases (l.foldl StripFold.next f).next_cases x with ⟨hdrop, -⟩ | ⟨-, hlast, -, hpushed⟩
    · exact absurd (hjs.symm.trans hdrop) (by decide)
    · rw [StripFold.pushed_append, hpushed, hlast]
      rfl

/-! ### The raw bytes -/

theorem rawFrom_add (mem : Memory) (base : Address) (p m n : Nat) :
    rawFrom mem base p (m + n) = rawFrom mem base p m ++ rawFrom mem base (p + m) n := by
  induction m generalizing p with
  | zero => rw [Nat.zero_add]; rfl
  | succ m ih => rw [Nat.succ_add, rawFrom, ih, rawFrom, List.cons_append, Nat.add_assoc p 1 m, Nat.add_comm 1 m]

/-- R128's fold over the raw bytes before `byte_pos`. -/
def Context.foldBefore (mem : Memory) (c : Context) : StripFold :=
  StripFold.run (rawFrom mem c.dataBase 0 c.bytePos.toNat)

theorem Context.foldBefore_of_bytePos_add {mem : Memory} {c t : Context} {m : Nat} (hbase : t.dataBase = c.dataBase)
    (hpos : t.bytePos.toNat = c.bytePos.toNat + m) :
    t.foldBefore mem = (rawFrom mem c.dataBase c.bytePos.toNat m).foldl StripFold.next (c.foldBefore mem) := by
  unfold Context.foldBefore StripFold.run
  rw [hbase, hpos, rawFrom_add, List.foldl_append, Nat.zero_add]

/-- The bytes the stripper lets through of those before `byte_pos` are the ones the fold did not count. -/
theorem Context.length_pushed_before (mem : Memory) (c : Context) :
    (StripFold.start.pushed (rawFrom mem c.dataBase 0 c.bytePos.toNat)).length + (c.foldBefore mem).drops =
      c.bytePos.toNat := by
  rw [Context.foldBefore, StripFold.run_eq, StripFold.length_pushed_add_drops, rawFrom_length]
  rfl

/-! ### Reading follows the fold -/

section Reading

variable {mem : Memory} {c t : Context}

theorem initContext_followsFold (mem : Memory) (base : Address) (size : Word) :
    (initContext base size).FollowsFold mem :=
  ⟨rfl, (by decide : (0x000000FF#32 : Word).extractLsb' 0 8 = 0xFF#8), rfl, rfl⟩

/-- The valid bits play no part in the fold. -/
theorem Context.FollowsFold.withBits (h : c.FollowsFold mem) (b : BitCount) :
    Context.FollowsFold mem { c with bitsInCache := b } := ⟨h.first, h.low, h.epb, h.pushed⟩

theorem Context.FollowsFold.isEpb_iff_drop (h : c.FollowsFold mem) (x : Byte) :
    isEpb c x = true ↔ x = 0x03#8 ∧ (c.foldBefore mem).b = 0x00#8 ∧ (c.foldBefore mem).a = 0x00#8 := by
  rw [isEpb_iff, h.first, h.low]
  rfl

/-- After a push the registers agree with a fold that has pushed the same byte. -/
theorem followsFold_of_push {b : Byte} {f : StripFold} (first : c.firstByte = f.b) (epb : c.epbCount.toNat = f.drops)
    (hfold : (pushByte c b).foldBefore mem = { f with a := f.b, b := b, js := false }) :
    (pushByte c b).FollowsFold mem := by
  unfold Context.foldBefore at hfold
  constructor <;> rw [hfold]
  · rfl
  · rw [pushByte_cache_low, first]
  · exact epb

/-- An iteration of Refill is a step of the fold, or two where it drops a byte. -/
theorem Context.FollowsFold.pushNext_keeps (h : c.FollowsFold mem) (hpush : pushNext mem c = some t) :
    t.FollowsFold mem := by
  have hsize := c.size.isLt
  have hepb : c.epbCount.toNat = (c.foldBefore mem).drops := h.epb
  rcases pushNext_cases hpush with ⟨hlt, htest, rfl⟩ | ⟨hlt, htest, rfl⟩
  · have hkeep : ¬ isEpb c (mem.read (byteAddress c.dataBase c.bytePos.toNat)) = true := by rw [htest]; decide
    refine followsFold_of_push (f := c.foldBefore mem) h.first hepb ?_
    refine Eq.trans (Context.foldBefore_of_bytePos_add (c := c) (m := 1) rfl (bytePos_succ hlt)) ?_
    exact StripFold.next_of_push (.inr (mt (h.isEpb_iff_drop _).2 hkeep))
  · have hdrops := c.length_pushed_before mem
    have hpos : (c.bytePos + 2#32).toNat = c.bytePos.toNat + 2 := by
      rw [BitVec.toNat_add, BitVec.toNat_ofNat]
      omega
    have hcount : (c.epbCount + 1#32).toNat = c.epbCount.toNat + 1 := bytePos_succ (size := c.size) (by omega)
    have hdrop := StripFold.next_of_drop (f := c.foldBefore mem) h.pushed ((h.isEpb_iff_drop _).1 htest)
    refine followsFold_of_push (f := (c.foldBefore mem).next (mem.read (byteAddress c.dataBase c.bytePos.toNat)))
      (by rw [hdrop]; exact h.first) (by rw [hdrop, hcount, hepb]) ?_
    refine Eq.trans (Context.foldBefore_of_bytePos_add (c := c) (m := 2) rfl hpos) ?_
    exact StripFold.next_of_push (.inl (congrArg StripFold.js hdrop))

theorem Context.FollowsFold.refill_keeps {n : Nat} (hn : n ≤ 32) (h : c.FollowsFold mem)
    (hrefill : refill mem c n = some t) : t.FollowsFold mem :=
  refill_induct hn (motive := fun c t => c.FollowsFold mem → t.FollowsFold mem) (fun _ _ h => h)
    (fun _ _ _ _ hpush _ ih h => ih (h.pushNext_keeps hpush)) hrefill h

theorem followsFold_keptByReads (mem : Memory) : KeptByReads mem (Context.FollowsFold mem) := by
  intro n v c t hn hread h
  obtain ⟨u, hrefill, -, rfl⟩ := getBits_some hread
  exact (h.refill_keeps hn hrefill).withBits _

/-! ### The bits consumed -/

/-- At rest the valid bits are the last ones of `first_byte` (R28, R30). -/
theorem windowBits_eq_drop (hbits : c.bitsInCache.toNat ≤ 7) :
    c.windowBits = (byteBits c.firstByte).drop (8 - c.bitsInCache.toNat) := by
  apply List.ext_getElem
  · rw [windowBits_length, List.length_drop, byteBits_length]
    omega
  · intro k hk _
    rw [windowBits_length] at hk
    have hlow : c.bitsInCache.toNat - 1 - k < 8 := by omega
    have hindex : 7 - (8 - c.bitsInCache.toNat + k) = c.bitsInCache.toNat - 1 - k := by omega
    simp only [Context.windowBits, byteBits, List.getElem_map, List.getElem_range, List.getElem_drop, Context.window,
      BitVec.getLsbD_append, hlow, if_true, hindex]

/-- The valid bits end the bits of any bytes that end with `first_byte`. -/
theorem windowBits_eq_drop_flatMap (hbits : c.bitsInCache.toNat ≤ 7) (before : List Byte) :
    c.windowBits =
      ((before ++ [c.firstByte]).flatMap byteBits).drop (8 * (before.length + 1) - c.bitsInCache.toNat) := by
  rw [windowBits_eq_drop hbits, List.flatMap_append, List.flatMap_singleton,
    show 8 * (before.length + 1) - c.bitsInCache.toNat = 8 * before.length + (8 - c.bitsInCache.toNat) by omega,
    ← flatMap_byteBits_length, List.drop_length_add_append]

theorem Context.FollowsFold.length_pushed (h : c.FollowsFold mem) :
    (StripFold.start.pushed (rawFrom mem c.dataBase 0 c.bytePos.toNat)).length + c.epbCount.toNat =
      c.bytePos.toNat := by
  rw [h.epb]
  exact c.length_pushed_before mem

/-- The valid bits end the bits of the bytes pushed so far. -/
theorem Context.FollowsFold.windowBits_eq (h : c.FollowsFold mem) (hc : c.Inv) :
    c.windowBits =
      ((StripFold.start.pushed (rawFrom mem c.dataBase 0 c.bytePos.toNat)).flatMap byteBits).drop
        (8 * (c.bytePos.toNat - c.epbCount.toNat) - c.bitsInCache.toNat) := by
  have hlength := h.length_pushed
  by_cases hnil : rawFrom mem c.dataBase 0 c.bytePos.toNat = []
  · have hpos : c.bytePos.toNat = 0 := by
      rw [← rawFrom_length mem c.dataBase 0 c.bytePos.toNat, hnil]
      rfl
    have hbits := hc.bits_backed
    have hwindow : c.windowBits = [] := List.length_eq_zero_iff.1 (by rw [windowBits_length]; omega)
    rw [hwindow, hnil]
    exact List.drop_nil.symm
  · obtain ⟨before, hbefore⟩ := StripFold.pushed_eq_concat (f := StripFold.start) hnil h.pushed
    rw [← StripFold.run_eq, ← h.first] at hbefore
    rw [hbefore, List.length_append, List.length_singleton] at hlength
    rw [hbefore, show c.bytePos.toNat - c.epbCount.toNat = before.length + 1 by omega]
    exact windowBits_eq_drop_flatMap hc.bits_le before

/-- The stripped buffer is the bytes pushed so far and then those the reader still has to push. -/
theorem Context.FollowsFold.strip_buffer (h : c.FollowsFold mem) (hc : c.Inv) :
    strip 0xFF#8 0xFF#8 false (rawFrom mem c.dataBase 0 c.size.toNat) =
      StripFold.start.pushed (rawFrom mem c.dataBase 0 c.bytePos.toNat) ++
        strip (c.cache.extractLsb' 0 8) c.firstByte false (c.rawRest mem) := by
  have hraw : rawFrom mem c.dataBase 0 c.size.toNat =
      rawFrom mem c.dataBase 0 c.bytePos.toNat ++ c.rawRest mem := by
    rw [← Nat.add_sub_cancel' hc.pos_le, rawFrom_add, Nat.zero_add]
    rfl
  have hhistory : strip (c.cache.extractLsb' 0 8) c.firstByte false (c.rawRest mem) =
      (c.foldBefore mem).pushed (c.rawRest mem) := by
    rw [h.first, h.low, ← h.pushed]
    rfl
  rw [hraw, hhistory]
  exact StripFold.pushed_append StripFold.start _ _

end Reading

end Sys2Proof.Machine
end

section
/-! The obligations of spec/41_core.md: Refill and its stripper, INIT, SKIP and SKIP_TO_NEXT_BYTE. -/

namespace Sys2Proof.Proofs.CoreReader

open Sys2Proof.Machine

/-- Settles O23: SKIP commits the copy GetBits leaves, which delivers the rest. -/
theorem skipPassesStreamBits : Obligations.SkipPassesStreamBits := by
  intro n s hs h1 hn
  refine ⟨fun hle => ?_, fun hlt => ?_⟩
  · obtain ⟨t, hread, hrest, hinv, hbase, hsize⟩ := getBits_of_le_deliverable hn hs hle
    exact ⟨_, execSkip_of_getBits_some h1 hn hread, hrest, rfl, hinv, hbase, hsize, rfl, rfl, rfl⟩
  · exact execSkip_of_getBits_none h1 hn (getBits_of_deliverable_lt hn hlt)

/-- Settles O36: reads keep the fold, and so do INIT, which starts it again, and a discard of valid bits. -/
theorem registersFollowTheFold : Obligations.RegistersFollowTheFold := by
  intro i s t _ hfold hmid h
  by_cases hskip : i = .skipToNextByte
  · subst hskip
    cases (execSkipToNextByte_of_midByte (hmid rfl)).symm.trans h
    exact hfold.withBits 0#6
  · by_cases hinit : ∃ base size, i = .init base size
    · obtain ⟨base, size, rfl⟩ := hinit
      cases h
      exact initContext_followsFold _ base size
    · exact KeptByReads.of_exec (followsFold_keptByReads s.readerMem) hfold
        (fun base size hi => hinit ⟨base, size, hi⟩) hskip h

/-- Settles O21: Refill's loop unfolded once, with the iteration of each case. -/
theorem refillPushesAndDrops : Obligations.RefillPushesAndDrops := by
  rintro mem c n _ _ isEpbByte h1 hn rfl rfl hepb
  rw [← isEpb_iff] at hepb
  refine ⟨refill_of_enough hn, fun hfew => ⟨fun hend => ?_, fun hlt hpush => ?_, fun hlast hdrop => ?_,
    fun hlt hdrop => ?_⟩⟩
  · exact refill_of_pushNext_none hn hfew (pushNext_of_no_byte hend)
  · rw [hepb, Bool.not_eq_true] at hpush
    exact refill_of_pushNext_some hn hfew (pushNext_of_push hlt hpush)
  · exact refill_of_pushNext_none hn hfew (pushNext_of_last_epb hlast (hepb.1 hdrop))
  · exact refill_of_pushNext_some hn hfew (pushNext_of_drop hlt (hepb.1 hdrop))

/-- Settles O24: the two commands fail alike or commit the same copy, and the response added is the one of that case. -/
theorem skipLeavesWhatGetLeaves : Obligations.SkipLeavesWhatGetLeaves := by
  intro n s t u p q hskip hget hp hq
  rcases execSkip_getBitsOp n s with ⟨st, hskip', hget'⟩ | ⟨c, v, hskip', hget'⟩
  all_goals
    cases hskip'.symm.trans hskip
    cases hget'.symm.trans hget
    obtain rfl := List.singleton_injective (List.append_cancel_left hp)
    obtain rfl := List.singleton_injective (List.append_cancel_left hq)
    exact ⟨rfl, rfl⟩

/-- Settles O33: with less budget fewer than `n` bits can be delivered, so the command fails. -/
theorem budgetIsNecessary : Obligations.BudgetIsNecessary := by
  intro p hp n s t v hs hexec hok
  obtain ⟨hbound, hfail⟩ := exec_readForms_fail p hp
  obtain ⟨hillegal, hexhausted⟩ := hfail n s
  by_contra hbudget
  have hlength := deliverable_length_le s.readerMem s.ctx
  have hpos := hs.pos_le
  unfold Context.readBound at hlength
  by_cases hn : 1 ≤ n.toNat ∧ n.toNat ≤ p.1
  · have hnone := getBits_of_deliverable_lt (mem := s.readerMem) (c := s.ctx) (hn.2.trans hbound) (by omega)
    cases (hexhausted hn.1 hn.2 hnone).symm.trans hexec
    exact fail_responses_ne_ok (by decide) v hok
  · cases (hillegal (countInRange_eq_false (by omega))).symm.trans hexec
    exact fail_responses_ne_ok (by decide) v hok

/-- Settles O35: the read is one iteration of Refill, which pushes the next byte, or drops it and pushes
the one after it. -/
theorem alignedByteReadStripsOneByte : Obligations.AlignedByteReadStripsOneByte := by
  rintro s _ _ isEpbByte aligned rfl rfl hepb
  rw [← isEpb_iff] at hepb
  refine ⟨fun hpush hlt => ?_, fun hdrop hlt => ?_⟩
  · rw [hepb, Bool.not_eq_true] at hpush
    exact getBitsOp_eight_of_aligned aligned (pushNext_of_push hlt hpush)
  · exact getBitsOp_eight_of_aligned aligned (pushNext_of_drop hlt (hepb.1 hdrop))

/-- Settles O37: the stripped buffer is the bytes pushed so far, whose last bits are the valid ones, and then those the
reader still has to push. -/
theorem consumedBitsAreAPrefix : Obligations.ConsumedBitsAreAPrefix := by
  intro s hs hfold
  have hlength := hfold.length_pushed
  rw [hfold.strip_buffer hs, List.flatMap_append, List.drop_append_of_le_length, ← hfold.windowBits_eq hs]
  · rfl
  · rw [flatMap_byteBits_length]
    omega

/-- Settles O49: the command answers once and moves the registers in one buffer; SKIP_TO_NEXT_BYTE fetches no byte. -/
theorem consumingCommandsFrame : Obligations.ConsumingCommandsFrame := by
  intro n s t i hi hexec
  obtain ⟨t', r, hexec', hresponses, hcommands, -⟩ := (exec_answer i s).answersOnce
  cases hexec'.symm.trans hexec
  rcases exec_next_cases hexec with ⟨base, size, rfl, -⟩ | ⟨hmem, hrewritten, hmoves⟩
  · simp at hi
  · obtain ⟨hbase, hsize⟩ := moves_same_buffer hmoves
    refine ⟨hbase, hsize, hcommands, hrewritten, ⟨r, hresponses⟩, fun a => by rw [hmem], ?_⟩
    rintro rfl
    exact execSkipToNextByte_history hexec

/-- Settles O22: SKIP's meaning in each case of its refill. -/
theorem skipRefillsAndDiscards : Obligations.SkipRefillsAndDiscards :=
  fun _ s => ⟨fun h1 hn => ⟨fun _ => execSkip_of_refill_some h1 hn, execSkip_of_refill_none h1 hn⟩,
    fun hout => execSkip_of_not_inRange (countInRange_eq_false hout) s⟩

/-- Settles O25: the two tests of SKIP_TO_NEXT_BYTE, aligned and at the end, separate the cases. -/
theorem skipToNextByteCases : Obligations.SkipToNextByteCases :=
  fun _ => ⟨execSkipToNextByte_of_aligned, execSkipToNextByte_of_end, execSkipToNextByte_of_midByte⟩

/-- Settles O20: INIT commits the registers of `initContext` to a new use of the reader. -/
theorem initSetsAllRegisters : Obligations.InitSetsAllRegisters := fun _ _ _ => rfl

end Sys2Proof.Proofs.CoreReader
end

section
/-!
The gets and the peeks on Refill (spec/42_fixed_width.md R150 to R158): the bits they answer, one body for all bounds
within the range of the count, and a peek beside the get of its width and count.
-/

namespace Sys2Proof.Machine

/-- R150: after a refill GetBits takes the top `n` valid bits of the window and counts them off. -/
theorem getBits_of_refill_some {mem : Memory} {c u : Context} {n : BitCount} (hn : n.toNat ≤ 32)
    (h : refill mem c n.toNat = some u) :
    getBits mem c n.toNat =
      some (u.window.toNat / 2 ^ (u.bitsInCache.toNat - n.toNat) % 2 ^ n.toNat,
        { u with bitsInCache := u.bitsInCache - n }) := by
  obtain ⟨v, hread⟩ := getBits_of_skip hn h
  obtain ⟨w, hw, rfl, -⟩ := getBits_some hread
  obtain rfl := Option.some.inj (hw.symm.trans h)
  rw [hread, Nat.and_two_pow_sub_one_eq_mod, Nat.shiftRight_eq_div_pow]

/-- The bound of a get serves the range check alone. -/
theorem getBitsOp_congr_bound {bound bound' : Nat} {n : BitCount} (h : countInRange bound n = countInRange bound' n)
    (s : State) : getBitsOp bound n s = getBitsOp bound' n s := by
  unfold getBitsOp
  rw [h]

/-- The bound of a peek serves the range check alone. -/
theorem peekBitsOp_congr_bound {bound bound' : Nat} {n : BitCount} (h : countInRange bound n = countInRange bound' n)
    (s : State) : peekBitsOp bound n s = peekBitsOp bound' n s := by
  unfold peekBitsOp
  rw [h]

/-! ### A peek and the get after it -/

theorem State.respond_respond (s : State) (st st' : Status) (v v' : Value) :
    (s.respond st v).respond st' v' = { s with responses := s.responses ++ [⟨st, v⟩, ⟨st', v'⟩] } := by
  unfold State.respond
  rw [List.append_assoc]
  rfl

/-- While the host keeps R60 a response does not change what the reader fetches. -/
theorem State.readerMem_respond {s : State} (h : s.rewritten = []) (st : Status) (v : Value) :
    (s.respond st v).readerMem = s.readerMem := by
  rw [State.readerMem_of_fixed h, State.readerMem_of_fixed (s := s.respond st v) h, State.respond_mem]

/-- The state `t` shows a read what `s` shows it: the same registers, and the same bytes to fetch. -/
def State.ReadsLike (t s : State) : Prop := t.ctx = s.ctx ∧ t.readerMem = s.readerMem

theorem State.readsLike_refl (s : State) : s.ReadsLike s := ⟨rfl, rfl⟩

theorem State.readsLike_respond {s : State} (h : s.rewritten = []) (st : Status) (v : Value) :
    (s.respond st v).ReadsLike s := ⟨rfl, State.readerMem_respond h st v⟩

/-- R157: a peek fails as every get from the registers and bytes of its state does, or both answer OK with one value
and the get commits Refill's registers with `n` bits counted off. -/
theorem peekBitsOp_getBitsOp {bound : Nat} (hbound : bound ≤ 32) (n : BitCount) (s : State) :
    (∃ st, st ≠ .ok ∧ peekBitsOp bound n s = .next (s.fail st) ∧
      ∀ t : State, t.ReadsLike s → getBitsOp bound n t = .next (t.fail st)) ∨
    ∃ v w, refill s.readerMem s.ctx n.toNat = some w ∧ peekBitsOp bound n s = .next (s.respond .ok v) ∧
      ∀ t : State, t.ReadsLike s →
        getBitsOp bound n t = .next (t.commit { w with bitsInCache := w.bitsInCache - n } v) := by
  by_cases hn : 1 ≤ n.toNat ∧ n.toNat ≤ bound
  · obtain ⟨h1, hn⟩ := hn
    cases hrefill : refill s.readerMem s.ctx n.toNat with
    | none =>
      have hread := getBits_none.2 hrefill
      refine .inl ⟨_, by decide, peekBitsOp_of_none h1 hn hread, fun t ⟨hctx, hmem⟩ => ?_⟩
      exact getBitsOp_of_none h1 hn (by rw [hctx, hmem, hread])
    | some w =>
      have hread := getBits_of_refill_some (hn.trans hbound) hrefill
      refine .inr ⟨_, w, rfl, peekBitsOp_of_some h1 hn hread, fun t ⟨hctx, hmem⟩ => ?_⟩
      exact getBitsOp_of_some h1 hn (by rw [hctx, hmem, hread])
  · have hout : countInRange bound n = false := countInRange_eq_false (by omega)
    exact .inl ⟨_, by decide, peekBitsOp_of_not_inRange hout s, fun t _ => getBitsOp_of_not_inRange hout t⟩

/-- The peek and the get of one width are the two bodies with one bound (R151 to R156). -/
theorem exec_peekGetPairs : ∀ p ∈ [(Instr.peekBitsUint8, Instr.getBitsUint8),
    (Instr.peekBitsUint16, Instr.getBitsUint16), (Instr.peekBitsUint32, Instr.getBitsUint32)],
    ∃ bound ≤ 32, (∀ n s, exec (p.1 n) s = peekBitsOp bound n s) ∧ ∀ n s, exec (p.2 n) s = getBitsOp bound n s := by
  simp only [List.forall_mem_cons, List.not_mem_nil, IsEmpty.forall_iff, implies_true, and_true]
  exact ⟨⟨8, by omega, fun _ _ => rfl, fun _ _ => rfl⟩, ⟨16, by omega, fun _ _ => rfl, fun _ _ => rfl⟩,
    ⟨32, by omega, fun _ _ => rfl, fun _ _ => rfl⟩⟩

end Sys2Proof.Machine
end

section
/-! The obligations of spec/42_fixed_width.md: the gets, the peeks, and the frame of the commands that only look. -/

namespace Sys2Proof.Proofs.FixedWidth

open Sys2Proof.Machine

/-- Settles O30: the peek and the get fail alike or answer one value, and the peek's response leaves the get after it
the registers and the bytes it started from. -/
theorem peekThenGetAgree : Obligations.PeekThenGetAgree := by
  intro n s p hp
  obtain ⟨bound, hbound, hpeek, hget⟩ := exec_peekGetPairs p hp
  simp only [hpeek, hget]
  rcases peekBitsOp_getBitsOp hbound n s with ⟨st, hst, hlook, hafter⟩ | ⟨v, w, hrefill, hlook, hafter⟩
  · refine ⟨_, _, ⟨st, 0#35⟩, hlook, hafter s s.readsLike_refl, rfl, rfl, rfl, fun hok => absurd hok hst, fun _ => rfl,
      fun hfixed => ?_⟩
    exact (hafter _ (State.readsLike_respond hfixed st 0#35)).trans (congrArg _ (s.respond_respond st st 0#35 0#35))
  · refine ⟨_, _, ⟨.ok, v⟩, hlook, hafter s s.readsLike_refl, rfl, rfl, rfl, fun _ => ⟨w, hrefill, rfl⟩,
      fun hfail => absurd rfl hfail, fun hfixed => ?_⟩
    exact (hafter _ (State.readsLike_respond hfixed .ok v)).trans
      (congrArg _ (State.respond_respond { s with ctx := { w with bitsInCache := w.bitsInCache - n } } .ok .ok v v))

/-- Settles O50: the command answers once and touches no memory, and its meaning commits no registers. -/
theorem lookingCommandsFrame : Obligations.LookingCommandsFrame := by
  intro n base x s t i hi hexec
  have hctx : t.ctx = s.ctx := by
    cases i with
    | peekBitsUint8 n | peekBitsUint16 n | peekBitsUint32 n => exact peekBitsOp_ctx hexec
    | isByteAligned | getPositionBits | getRemainingBits | getEpbCount | hasMoreRbspData =>
      cases hexec
      rfl
    | scanForStartCodes base size => exact execScanForStartCodes_ctx hexec
    | ceilLog2 v => exact execCeilLog2_ctx hexec
    | _ => simp at hi
  obtain ⟨t', r, hexec', hresponses, hcommands, -⟩ := (exec_answer i s).answersOnce
  cases hexec'.symm.trans hexec
  rcases exec_next_cases hexec with ⟨base, size, rfl, -⟩ | ⟨hmem, hrewritten, -⟩
  · simp at hi
  · exact ⟨hctx, hmem, hcommands, hrewritten, r, hresponses⟩

/-- Settles O26: the get commits what GetBits takes of Refill's window. -/
theorem getTakesTheTopOfTheWindow : Obligations.GetTakesTheTopOfTheWindow := by
  intro p hp n s
  obtain ⟨hbound, hexec⟩ := exec_getForms p hp
  simp only [hexec]
  refine ⟨fun h1 hn => ⟨fun u hu => ?_, fun hnone => ?_⟩, fun hout => ?_⟩
  · have hread := getBits_of_refill_some (hn.trans hbound) hu
    exact ⟨_, getBits_lt hread, rfl, getBitsOp_of_some h1 hn hread⟩
  · exact getBitsOp_of_none h1 hn (getBits_none.2 hnone)
  · exact getBitsOp_of_not_inRange (countInRange_eq_false hout) s

/-- Settles O27: the peek answers what GetBits takes of Refill's window and drops the copy. -/
theorem peekTakesNothing : Obligations.PeekTakesNothing := by
  intro p hp n s
  obtain ⟨hbound, hexec⟩ := exec_peekForms p hp
  simp only [hexec]
  refine ⟨fun h1 hn => ⟨fun u hu => ?_, fun hnone => ?_⟩, fun hout => ?_⟩
  · exact peekBitsOp_of_some h1 hn (getBits_of_refill_some (hn.trans hbound) hu)
  · exact peekBitsOp_of_none h1 hn (getBits_none.2 hnone)
  · exact peekBitsOp_of_not_inRange (countInRange_eq_false hout) s

/-- Settles O31: a count legal in the narrower width passes both range checks, all that tells the widths apart. -/
theorem widthsAgree : Obligations.WidthsAgree := by
  intro n s h1
  have hrange {bound bound' : Nat} (hle : bound ≤ bound') (hn : n.toNat ≤ bound) :
      countInRange bound n = countInRange bound' n := by
    rw [countInRange_of_le h1 hn, countInRange_of_le h1 (hn.trans hle)]
  refine ⟨fun hn => ?_, fun hn => ?_⟩
  · have hcheck : countInRange 8 n = countInRange 16 n := hrange (by omega) hn
    exact ⟨getBitsOp_congr_bound hcheck s, peekBitsOp_congr_bound hcheck s⟩
  · have hcheck : countInRange 16 n = countInRange 32 n := hrange (by omega) hn
    exact ⟨getBitsOp_congr_bound hcheck s, peekBitsOp_congr_bound hcheck s⟩

end Sys2Proof.Proofs.FixedWidth
end

section
/-!
GET_UE on every bit string the reader can deliver (spec/43_exp_golomb.md R170, R171, R174): its three failures and its
answer by the string's leading zeros, and the three reads that an answered code is taken in.
-/

namespace Sys2Proof.Machine

/-! ### Leading zeros -/

theorem leadingZeros_cons_false (l : List Bool) : leadingZeros (false :: l) = leadingZeros l + 1 := rfl

theorem eq_zeros_of_no_one {l : List Bool} (h : leadingZeros l = l.length) : l = List.replicate l.length false := by
  have hzeros := List.takeWhile_eq_self_iff.1 ((List.takeWhile_prefix _).eq_of_length h)
  exact List.eq_replicate_of_mem fun bit hbit => by simpa using hzeros bit hbit

/-- A bit string that holds a `1` is its leading zeros, that `1` and the rest (R95). -/
theorem eq_zeros_one_rest {l : List Bool} (h : leadingZeros l < l.length) :
    l = List.replicate (leadingZeros l) false ++ true :: l.drop (leadingZeros l + 1) := by
  induction l with
  | nil => exact absurd h (Nat.not_lt_zero _)
  | cons bit l ih =>
    cases bit with
    | true => rfl
    | false =>
      rw [leadingZeros_cons_false] at h ⊢
      exact congrArg (false :: ·) (ih (Nat.lt_of_succ_lt_succ h))

/-! ### Reads end to end -/

theorem getBits_zero (mem : Memory) (c : Context) : getBits mem c 0 = some (0, c) := by
  have hbits : BitVec.ofNat 6 (c.bitsInCache.toNat - 0) = c.bitsInCache := by
    apply BitVec.eq_of_toNat_eq
    rw [bits_ofNat, Nat.sub_zero]
  rw [getBits, refill_of_enough (by omega) (Nat.zero_le _)]
  simp only [hbits, pow_zero, Nat.sub_self, Nat.and_zero]

/-- Two reads one after the other leave what one read of both counts leaves (R55). -/
theorem getBits_of_getBits {mem : Memory} {c u t : Context} {a b x y : Nat} (hab : a + b ≤ 32) (hc : c.Inv)
    (hfirst : getBits mem c a = some (x, u)) (hsecond : getBits mem u b = some (y, t)) :
    ∃ v, getBits mem c (a + b) = some (v, t) := by
  have ha : a ≤ (c.deliverable mem).length := (getBits_isSome (by omega)).1 (by rw [hfirst]; rfl)
  have hb : b ≤ (u.deliverable mem).length := (getBits_isSome (by omega)).1 (by rw [hsecond]; rfl)
  rw [(getBits_deliverable (by omega) hc.bits_le hfirst).2, List.length_drop] at hb
  obtain ⟨⟨v, w⟩, hwhole⟩ := Option.isSome_iff_exists.1 ((getBits_isSome (mem := mem) (t := c) hab).2 (by omega))
  obtain rfl : t = w := getBits_getBits_ctx hab hwhole hfirst hsecond
  exact ⟨v, hwhole⟩

/-- The single-bit reads of the zero-counting loop that finds `z` more zeros leave what one read of `z` bits and one of
the `1` leave. -/
theorem countZerosLoop_reads {mem : Memory} {c t : Context} {fuel i z : Nat} (hc : c.Inv) (hz : z ≤ 32)
    (h : countZerosLoop mem fuel i c = some (i + z, t)) :
    ∃ x y u, getBits mem c z = some (x, u) ∧ getBits mem u 1 = some (y, t) := by
  induction fuel generalizing i z c with
  | zero => cases h
  | succ fuel ih =>
    rw [countZerosLoop_succ] at h
    split at h
    · cases h
    · rename_i b u hread
      split at h
      · obtain ⟨hzero, rfl⟩ := Prod.mk.inj (Option.some.inj h)
        obtain rfl : z = 0 := by omega
        exact ⟨0, b, c, getBits_zero mem c, hread⟩
      · obtain ⟨hu, -⟩ := getBits_inv (by omega) hc hread
        obtain ⟨-, -, -, hmore⟩ := countZerosLoop_inv hu h
        obtain ⟨z, rfl⟩ : ∃ m, z = 1 + m := ⟨z - 1, by omega⟩
        rw [← Nat.add_assoc] at h
        obtain ⟨x, y, w, hzeros, hone⟩ := ih hu (by omega) h
        obtain ⟨v, hwhole⟩ := getBits_of_getBits hz hc hread hzeros
        exact ⟨v, y, w, hwhole, hone⟩

/-! ### Counting the leading zeros -/

theorem countZerosLoop_of_no_one {mem : Memory} {c : Context} {z : Nat} (hc : c.Inv)
    (h : c.deliverable mem = List.replicate z false) (fuel i : Nat) : countZerosLoop mem fuel i c = none := by
  induction fuel generalizing i z c with
  | zero => rfl
  | succ fuel ih =>
    rw [countZerosLoop_succ]
    cases z with
    | zero => rw [getBits_of_deliverable_lt (by omega) (by rw [h]; exact Nat.zero_lt_one)]
    | succ z =>
      obtain ⟨t, hread, hrest, ht⟩ := getBits_one hc h
      rw [hread]
      exact ih ht hrest (i + 1)

/-! ### GET_UE's body -/

/-- R170, R171: after at most 32 zeros GET_UE's body is the read of the remainder, for no zeros a read of no bits. -/
theorem ueDecode_of_countZeros {mem : Memory} {c t : Context} {i : Nat} (h : countZeros mem c = some (i, t))
    (hi : i ≤ 32) :
    ueDecode mem c = (getBits mem t i).elim (.error .insufficientData) fun p => .ok (ueCode i p.1, p.2) := by
  have hremainder : ueRemainder mem t i = getBits mem t i := by
    rw [ueRemainder]
    split
    · rename_i hzero
      rw [hzero, getBits_zero]
    · rfl
  rw [ueDecode, h]
  simp only [if_neg (show ¬ Config.ueMaxZeros < i from not_lt.2 hi), hremainder]
  cases getBits mem t i <;> rfl

section Stream

variable {mem : Memory} {c : Context} {bits : List Bool} {i : Nat} (hc : c.Inv) (hbits : bits = c.deliverable mem)
  (hi : i = leadingZeros bits)
include hc hbits hi

theorem countZeros_of_one (h : i < bits.length) :
    ∃ t, countZeros mem c = some (i, t) ∧ t.deliverable mem = bits.drop (i + 1) ∧ t.Inv := by
  subst hi
  exact countZeros_of_deliverable hc (hbits.symm.trans (eq_zeros_one_rest h))

/-- R174: a run of zeros that reaches the end is insufficient data, however long it is. -/
theorem ueDecode_of_no_one (h : i = bits.length) : ueDecode mem c = .error .insufficientData := by
  have hzeros := hbits.symm.trans (eq_zeros_of_no_one (hi.symm.trans h))
  have hcount : countZeros mem c = none := countZerosLoop_of_no_one hc hzeros _ 0
  rw [ueDecode, hcount]

/-- R174: a `1` behind more than 32 zeros is code overflow. -/
theorem ueDecode_of_long_run (h : i < bits.length) (hz : 32 < i) : ueDecode mem c = .error .codeOverflow := by
  obtain ⟨t, hcount, -⟩ := countZeros_of_one hc hbits hi h
  rw [ueDecode, hcount]
  exact if_pos hz

theorem ueDecode_of_short_remainder (h : i < bits.length) (hz : i ≤ 32) (hlen : bits.length < 2 * i + 1) :
    ueDecode mem c = .error .insufficientData := by
  obtain ⟨t, hcount, hrest, -⟩ := countZeros_of_one hc hbits hi h
  have hread : getBits mem t i = none := getBits_of_deliverable_lt hz (by rw [hrest, List.length_drop]; omega)
  rw [ueDecode_of_countZeros hcount hz, hread]
  rfl

/-- A whole code is taken by a read of its zeros, one of its `1` and one of its remainder. -/
theorem ueDecode_reads (hz : i ≤ 32) (hlen : 2 * i + 1 ≤ bits.length) :
    ∃ x y value u v t, getBits mem c i = some (x, u) ∧ getBits mem u 1 = some (y, v) ∧
      getBits mem v i = some (value, t) ∧ ueDecode mem c = .ok (ueCode i value, t) := by
  obtain ⟨v, hcount, hrest, hv⟩ := countZeros_of_one hc hbits hi (by omega)
  obtain ⟨x, y, u, hzeros, hone⟩ := countZerosLoop_reads (i := 0) hc hz (by rw [Nat.zero_add]; exact hcount)
  obtain ⟨t, hread, -⟩ := getBits_of_le_deliverable hz hv (by rw [hrest, List.length_drop]; omega)
  refine ⟨x, y, _, u, v, t, hzeros, hone, hread, ?_⟩
  rw [ueDecode_of_countZeros hcount hz, hread]
  rfl

/-- R171: the value of a whole code, and the bits behind it. -/
theorem ueDecode_of_whole_code (hz : i ≤ 32) (hlen : 2 * i + 1 ≤ bits.length) :
    ∃ t, ueDecode mem c = .ok (ueCode i (bitsToNat ((bits.drop (i + 1)).take i)), t) ∧
      t.deliverable mem = bits.drop (2 * i + 1) := by
  have hcode : bits = List.replicate i false ++ true :: ((bits.drop (i + 1)).take i ++ (bits.drop (i + 1)).drop i) := by
    rw [List.take_append_drop, hi]
    exact eq_zeros_one_rest (by omega)
  obtain ⟨t, hdecode, hrest⟩ := ueDecode_of_deliverable hc hz (by rw [List.length_take, List.length_drop]; omega)
    (hbits.symm.trans hcode)
  refine ⟨t, hdecode, hrest.trans ?_⟩
  rw [List.drop_drop]
  congr 1
  omega

end Stream

/-! ### The commands -/

theorem execGetUe_of_error {s : State} {st : Status} (h : ueDecode s.readerMem s.ctx = .error st) :
    execGetUe s = .next (s.fail st) := by
  rw [execGetUe, h]

theorem execGetSe_of_error {s : State} {st : Status} (h : ueDecode s.readerMem s.ctx = .error st) :
    execGetSe s = .next (s.fail st) := by
  rw [execGetSe, h]

/-- R171: the 35-bit value holds the code's number modulo `2^32`. -/
theorem wordValue_ueCode (i value : Nat) :
    wordValue (ueCode i value) = BitVec.ofNat 35 ((2 ^ i - 1 + value) % 2 ^ 32) := by
  rw [← wordValue_ofNat (Nat.mod_lt _ (Nat.two_pow_pos 32)), ueCode]
  congr 1
  apply BitVec.eq_of_toNat_eq
  simp only [BitVec.toNat_ofNat, Nat.mod_mod]

/-- R173: the 35-bit value holds the low 32 bits of an integer, with zeros above. -/
theorem wordValue_ofInt (v : Int) : wordValue (BitVec.ofInt 32 v) = BitVec.ofNat 35 (v % 2 ^ 32).toNat := by
  have hlt : (v % 2 ^ 32).toNat < 2 ^ 32 := by omega
  rw [← wordValue_ofNat hlt]
  congr 1
  apply BitVec.eq_of_toNat_eq
  rw [BitVec.toNat_ofInt, BitVec.toNat_ofNat, Nat.mod_eq_of_lt hlt]
  rfl

/-- R172: the zig-zag image by its two equations. -/
theorem zigZag_eq {k : Nat} {v : Int} (hodd : k % 2 = 1 → 2 * v = (k : Int) + 1)
    (heven : k % 2 = 0 → 2 * v = -(k : Int)) : zigZag k = v := by
  unfold zigZag
  split <;> omega

/-- While the host keeps R60 a committed command does not change what the reader fetches. -/
theorem State.readerMem_commit {s : State} (h : s.rewritten = []) (t : Context) (v : Value) :
    (s.commit t v).readerMem = s.readerMem := by
  rw [State.readerMem_of_fixed h, State.readerMem_of_fixed (s := s.commit t v) h, State.commit_mem]

/-- SKIP `n` commits the registers a read of `n` bits leaves (R125). -/
theorem exec_skip_of_getBits {s : State} {n v : Nat} {t : Context} (h1 : 1 ≤ n) (hn : n ≤ 32)
    (h : getBits s.readerMem s.ctx n = some (v, t)) :
    exec (.skip (BitVec.ofNat 6 n)) s = .next (s.commit t 0#35) := by
  have hcount : (BitVec.ofNat 6 n).toNat = n := by
    rw [BitVec.toNat_ofNat, Nat.mod_eq_of_lt (by omega)]
  rw [← hcount] at h1 hn h
  exact execSkip_of_getBits_some h1 hn h

end Sys2Proof.Machine
end

section
/-! The obligations of spec/43_exp_golomb.md: what GET_UE and GET_SE answer, and the registers GET_UE leaves. -/

namespace Sys2Proof.Proofs.ExpGolomb

open Sys2Proof.Machine

/-- Settles O38: a clause for each way the leading zeros of the deliverable bits can end. -/
theorem getUeDecodesTheStream : Obligations.GetUeDecodesTheStream := by
  intro s bits i hs hbits hi
  refine ⟨fun h => execGetUe_of_error (ueDecode_of_no_one hs hbits hi h),
    fun h hz => execGetUe_of_error (ueDecode_of_long_run hs hbits hi h hz),
    fun h hz hlen => execGetUe_of_error (ueDecode_of_short_remainder hs hbits hi h hz hlen), fun hz hlen => ?_⟩
  obtain ⟨t, hdecode, hrest⟩ := ueDecode_of_whole_code hs hbits hi hz hlen
  obtain ⟨hinv, hbase, hsize⟩ := ueDecode_inv hs hdecode
  refine ⟨_, execGetUe_of_ok hdecode, ?_, hrest, hinv, hbase, hsize, rfl, rfl, rfl⟩
  rw [State.commit_responses, wordValue_ueCode]

/-- Settles O39: GET_UE's single-bit reads of the zeros are one read of all of them, and SKIP commits what a read
leaves. For no zeros the reads of the zeros and of the remainder take nothing. -/
theorem getUeLeavesWhatSkipsLeave : Obligations.GetUeLeavesWhatSkipsLeave := by
  intro s t i hs hfixed hi hz hlen hexec
  rw [← State.readerMem_of_fixed hfixed] at hi hlen
  obtain ⟨x, y, value, u, v, w, hzeros, hone, hremainder, hdecode⟩ := ueDecode_reads hs rfl hi hz hlen
  cases (execGetUe_of_ok hdecode).symm.trans hexec
  refine ⟨fun hnone => ?_, fun hsome => ?_⟩
  · rw [hnone, getBits_zero] at hzeros hremainder
    cases hzeros
    cases hremainder
    exact ⟨_, exec_skip_of_getBits (le_refl 1) (by omega) hone, rfl⟩
  · have hmem (c : Context) : (s.commit c 0#35).readerMem = s.readerMem := State.readerMem_commit hfixed c _
    have hmem' (c d : Context) : ((s.commit c 0#35).commit d 0#35).readerMem = s.readerMem :=
      (State.readerMem_commit (s := s.commit c 0#35) hfixed d _).trans (hmem c)
    exact ⟨_, _, _, exec_skip_of_getBits hsome hz hzeros,
      exec_skip_of_getBits (le_refl 1) (by omega) (by rw [hmem]; exact hone),
      exec_skip_of_getBits hsome hz (by rw [hmem']; exact hremainder), rfl⟩

/-- Settles O40: GET_SE runs GET_UE's body, so only the value differs, by the zig-zag mapping of the code's number. -/
theorem getSeMapsTheCode : Obligations.GetSeMapsTheCode := by
  intro s bits i k v hs hbits hi hk hodd heven
  refine ⟨fun h => execGetSe_of_error (ueDecode_of_no_one hs hbits hi h),
    fun h hz => execGetSe_of_error (ueDecode_of_long_run hs hbits hi h hz),
    fun h hz hlen => execGetSe_of_error (ueDecode_of_short_remainder hs hbits hi h hz hlen), fun hz hlen => ?_⟩
  obtain ⟨t, hdecode, -⟩ := ueDecode_of_whole_code hs hbits hi hz hlen
  refine ⟨_, _, execGetSe_of_ok hdecode, execGetUe_of_ok hdecode, rfl, ?_, rfl, rfl, rfl⟩
  rw [State.commit_responses, ueCode, BitVec.toNat_ofNat, ← hk, zigZag_eq hodd heven, wordValue_ofInt]

end Sys2Proof.Proofs.ExpGolomb
end

section
/-!
The queries of spec/44_stream_utils.md R191 to R195 on registers at rest: the exact counts of bits before and behind the
position, and the alignment they show.
-/

namespace Sys2Proof.Machine

/-! ### Values -/

theorem boolValue_eq_one {b : Bool} : boolValue b = 1#35 ↔ b = true := by
  cases b <;> decide

/-- A natural number below `2^35` keeps all its bits in the value (R94). -/
theorem intValue_natCast_toNat {k : Nat} (h : k < 2 ^ 35) : (intValue (k : Int)).toNat = k := by
  rw [intValue, BitVec.ofInt_natCast, BitVec.toNat_ofNat, Nat.mod_eq_of_lt h]

theorem bits_eq_zero_iff {b : BitCount} : b = 0#6 ↔ b.toNat = 0 := BitVec.toNat_inj.symm

theorem boolValue_bits_eq_zero (b : BitCount) : boolValue (b == 0#6) = if b.toNat = 0 then 1#35 else 0#35 := by
  simp only [boolValue, beq_iff_eq, bits_eq_zero_iff]

/-- R94: a register's value is its number, with zeros above. -/
theorem wordValue_eq_ofNat (w : Word) : wordValue w = BitVec.ofNat 35 w.toNat := (BitVec.ofNat_toNat 35 w).symm

/-! ### The counts at rest -/

section AtRest

variable {c : Context} (hc : c.Inv)
include hc

/-- R193: at rest the position counts the bits of whole bytes taken, less those still in the window. -/
theorem positionBits_eq_natCast : c.positionBits = ((8 * c.bytePos.toNat - c.bitsInCache.toNat : Nat) : Int) := by
  have hbacked := hc.bits_backed
  unfold Context.positionBits
  omega

/-- R194: at rest the bits left are the bound on single-bit reads. -/
theorem remainingBits_eq_readBound : c.remainingBits = (c.readBound : Int) := by
  have hpos := hc.pos_le
  unfold Context.remainingBits Context.readBound
  omega

theorem intValue_positionBits_toNat :
    (intValue c.positionBits).toNat = 8 * c.bytePos.toNat - c.bitsInCache.toNat := by
  have hlt := c.bytePos.isLt
  rw [positionBits_eq_natCast hc, intValue_natCast_toNat (by omega)]

theorem intValue_remainingBits_toNat : (intValue c.remainingBits).toNat = c.readBound := by
  have hlt := c.size.isLt
  have hbits := hc.bits_le
  rw [remainingBits_eq_readBound hc, intValue_natCast_toNat (by unfold Context.readBound; omega)]

/-- At rest fewer than 8 bits are in the window, so the position is a whole number of bytes only without any. -/
theorem bits_eq_zero_iff_position : c.bitsInCache = 0#6 ↔ (intValue c.positionBits).toNat % 8 = 0 := by
  have hbits := hc.bits_le
  have hbacked := hc.bits_backed
  rw [bits_eq_zero_iff, intValue_positionBits_toNat hc]
  omega

end AtRest

end Sys2Proof.Machine
end

section
/-! The scan of spec/44_stream_utils.md R198 is a search of the candidate offsets in rising order. -/

namespace Sys2Proof.Machine

theorem startCodeAt_iff {mem : Memory} {base : Address} {p : Nat} :
    startCodeAt mem base p = true ↔ mem.read (base + BitVec.ofNat 32 p) = 0x00#8 ∧
      mem.read (base + BitVec.ofNat 32 (p + 1)) = 0x00#8 ∧ mem.read (base + BitVec.ofNat 32 (p + 2)) = 0x01#8 := by
  simp only [startCodeAt, byteAddress, Bool.and_eq_true, beq_iff_eq, and_assoc]

theorem scanFrom_eq_find? (mem : Memory) (base : Address) (p k : Nat) :
    scanFrom mem base p k = (List.range' p k).find? (startCodeAt mem base) := by
  induction k generalizing p with
  | zero => rfl
  | succ k ih =>
    rw [scanFrom, List.range'_succ, List.find?_cons, ih]
    cases startCodeAt mem base p <;> rfl

theorem scan_eq_find? (mem : Memory) (base : Address) (size : Word) :
    scan mem base size = (List.range (size.toNat - 2)).find? (startCodeAt mem base) := by
  rw [scan, scanFrom_eq_find?, List.range_eq_range']

theorem execScanForStartCodes_of_some {base : Address} {size : Word} {s : State} {p : Nat}
    (h : scan s.mem base size = some p) :
    execScanForStartCodes base size s = .next (s.respond .ok (natValue p)) := by
  rw [execScanForStartCodes, h]

theorem execScanForStartCodes_of_none {base : Address} {size : Word} {s : State}
    (h : scan s.mem base size = none) : execScanForStartCodes base size s = .next (s.fail .notFound) := by
  rw [execScanForStartCodes, h]

end Sys2Proof.Machine
end

section
/-!
HAS_MORE_RBSP_DATA (spec/44_stream_utils.md R196, R197) against the bits the reader can still deliver: with at most 8
bits left these are all of them or none, and the two peeks look for a stop bit and zeros behind it.
-/

namespace Sys2Proof.Machine

/-! ### Bit strings of zeros -/

theorem bitsToNat_cons (bit : Bool) (l : List Bool) :
    bitsToNat (bit :: l) = bit.toNat * 2 ^ l.length + bitsToNat l := by
  rw [← List.singleton_append, bitsToNat_append]
  simp [bitsToNat]

theorem bitsToNat_eq_zero_iff {l : List Bool} : bitsToNat l = 0 ↔ l = List.replicate l.length false := by
  induction l with
  | nil => exact iff_of_true rfl rfl
  | cons bit l ih =>
    rw [bitsToNat_cons, List.length_cons, List.replicate_succ, List.cons.injEq, ← ih]
    cases bit <;> simp

/-- The mask of R196 takes the first bit off a bit string. -/
theorem bitsToNat_cons_and_mask (bit : Bool) (l : List Bool) :
    bitsToNat (bit :: l) &&& (2 ^ l.length - 1) = bitsToNat l := by
  rw [Nat.and_two_pow_sub_one_eq_mod, bitsToNat_cons, Nat.mul_add_mod', Nat.mod_eq_of_lt (bitsToNat_lt l)]

/-! ### At most 8 bits left -/

/-- The stripper drops or keeps a last byte. -/
theorem strip_singleton (a b x : Byte) : strip a b false [x] = [] ∨ strip a b false [x] = [x] := by
  rw [strip]
  split
  · exact .inl rfl
  · exact .inr rfl

/-- With at most 8 bits left they lie in the window, or they are one raw byte behind an empty window; so all of them can
be delivered or, where that byte is dropped, none. -/
theorem deliverable_all_or_none (mem : Memory) {c : Context} (h : c.readBound ≤ 8) :
    c.deliverable mem = [] ∨ (c.deliverable mem).length = c.readBound := by
  have hbits := windowBits_length c
  unfold Context.readBound at h ⊢
  rcases Nat.lt_or_ge c.bytePos.toNat c.size.toNat with hmore | hend
  · have hempty : c.windowBits = [] := List.length_eq_zero_iff.1 (by omega)
    have hlast : c.size.toNat - (c.bytePos.toNat + 1) = 0 := by omega
    rw [Context.deliverable, hempty, rawRest_cons hmore, hlast, rawFrom, List.nil_append]
    rcases strip_singleton (c.cache.extractLsb' 0 8) c.firstByte
      (mem.read (byteAddress c.dataBase c.bytePos.toNat)) with hdropped | hkept
    · rw [hdropped]
      exact .inl rfl
    · rw [hkept, flatMap_byteBits_length, List.length_singleton]
      exact .inr (by omega)
  · rw [Context.deliverable, rawRest_nil hend, strip, List.flatMap_nil, List.append_nil]
    exact .inr (by omega)

/-! ### The answer -/

section AtRest

variable {mem : Memory} {c : Context} (hc : c.Inv)
include hc

theorem hasMoreRbspData_of_many (h : 8 < c.readBound) : hasMoreRbspData mem c = true := by
  unfold hasMoreRbspData
  rw [remainingBits_eq_readBound hc]
  simp only [if_neg (show ¬ (c.readBound : Int) = 0 by omega), if_pos (show (8 : Int) < c.readBound by omega)]

theorem hasMoreRbspData_of_nothing (h : c.readBound ≤ 8) (hnil : c.deliverable mem = []) :
    hasMoreRbspData mem c = false := by
  have hpeek : getBits mem c 1 = none := getBits_of_deliverable_lt (by omega) (by rw [hnil]; exact Nat.zero_lt_one)
  unfold hasMoreRbspData
  rw [remainingBits_eq_readBound hc]
  simp only [if_neg (show ¬ (8 : Int) < c.readBound by omega), hpeek, ite_self]

/-- The two peeks of R196 in front of all the bits left: a first bit 0 cannot be the stop bit, and behind a first bit 1
any other 1 shows more data. -/
theorem hasMoreRbspData_of_all {bit : Bool} {rest : List Bool} (h : c.readBound ≤ 8)
    (hbits : c.deliverable mem = bit :: rest) (hall : c.readBound = rest.length + 1) :
    hasMoreRbspData mem c = true ↔ bit :: rest ≠ true :: List.replicate rest.length false := by
  obtain ⟨t, hpeek, -⟩ := getBits_one hc hbits
  obtain ⟨u, hpeekAll, -⟩ := getBits_of_le_deliverable (mem := mem) (n := rest.length + 1) (by omega) hc
    (by rw [hbits, List.length_cons])
  rw [hbits, List.take_of_length_le (by rw [List.length_cons])] at hpeekAll
  unfold hasMoreRbspData
  rw [remainingBits_eq_readBound hc, hall]
  simp only [if_neg (show ¬ ((rest.length + 1 : Nat) : Int) = 0 by omega),
    if_neg (show ¬ (8 : Int) < ((rest.length + 1 : Nat) : Int) by omega), hpeek]
  cases bit with
  | false => simp
  | true =>
    simp only [Int.toNat_natCast, hpeekAll, Nat.add_sub_cancel, bitsToNat_cons_and_mask]
    cases rest with
    | nil => simp
    | cons bit' rest =>
      have hmore : ¬ (((bit' :: rest).length + 1 : Nat) : Int) = 1 := by
        rw [List.length_cons]
        omega
      rw [if_neg (show ¬ true.toNat = 0 by decide), if_neg hmore, bne_iff_ne, Ne, bitsToNat_eq_zero_iff, Ne,
        List.cons.injEq]
      simp only [true_and]

/-- R196, R197: true with more than 8 bits left, or in front of deliverable bits that are not the trailing bits. -/
theorem hasMoreRbspData_iff : hasMoreRbspData mem c = true ↔ 8 < c.readBound ∨
    c.deliverable mem ≠ [] ∧ c.deliverable mem ≠ true :: List.replicate (c.readBound - 1) false := by
  rcases Nat.lt_or_ge 8 c.readBound with hmany | hfew
  · exact iff_of_true (hasMoreRbspData_of_many hc hmany) (.inl hmany)
  · rw [or_iff_right (not_lt.2 hfew)]
    cases hbits : c.deliverable mem with
    | nil => simp [hasMoreRbspData_of_nothing hc hfew hbits]
    | cons bit rest =>
      have hall : c.readBound = rest.length + 1 := by
        rcases deliverable_all_or_none mem hfew with hnil | hlength
        · exact absurd (hbits.symm.trans hnil) (List.cons_ne_nil _ _)
        · rw [← hlength, hbits, List.length_cons]
      rw [hasMoreRbspData_of_all hc hfew hbits hall, hall, Nat.add_sub_cancel, and_iff_right (List.cons_ne_nil _ _)]

end AtRest

theorem exec_hasMoreRbspData {s : State} {b : Bool} (h : hasMoreRbspData s.readerMem s.ctx = b) :
    exec .hasMoreRbspData s = .next (s.respond .ok (boolValue b)) := by
  rw [← h]
  rfl

end Sys2Proof.Machine
end

section
/-! The obligations of spec/44_stream_utils.md: the queries, HAS_MORE_RBSP_DATA and the scan. -/

namespace Sys2Proof.Proofs.StreamUtils

open Sys2Proof.Machine

/-- Settles O46: the two clauses are the two answers, since without a bit left none can be delivered. -/
theorem hasMoreSeesTrailingBits : Obligations.HasMoreSeesTrailingBits := by
  rintro s bits r hs rfl hr
  have hmore := hasMoreRbspData_iff (mem := s.readerMem) hs
  have hlength := deliverable_length_le s.readerMem s.ctx
  obtain rfl : r = s.ctx.readBound := hr
  refine ⟨fun h => exec_hasMoreRbspData (b := false) ?_, fun h => exec_hasMoreRbspData (b := true) ?_⟩
  · rw [← Bool.not_eq_true, hmore]
    rintro (hmany | ⟨hsome, hdata⟩)
    · omega
    · rcases h with hnone | ⟨-, hnil | htrailing⟩
      · exact hsome (List.length_eq_zero_iff.1 (by omega))
      · exact hsome hnil
      · exact hdata htrailing
  · exact hmore.2 (h.imp_right And.right)

/-- Settles O44: both counts fit the 35-bit value. -/
theorem positionQueriesAreExact : Obligations.PositionQueriesAreExact := by
  intro s hs
  have hposition := intValue_positionBits_toNat hs
  have hremaining := intValue_remainingBits_toNat hs
  have hbacked := hs.bits_backed
  have hpos := hs.pos_le
  unfold Context.readBound at hremaining
  exact ⟨_, _, rfl, rfl, by omega, hremaining, by omega⟩

/-- Settles O45: fewer than 8 bits are in the window. -/
theorem alignedIffPositionIsWholeBytes : Obligations.AlignedIffPositionIsWholeBytes := by
  intro s t u p q hs haligned hp hposition hq
  cases haligned
  cases hposition
  obtain ⟨-, rfl⟩ := Response.mk.inj (List.singleton_injective (List.append_cancel_left hp))
  obtain ⟨-, rfl⟩ := Response.mk.inj (List.singleton_injective (List.append_cancel_left hq))
  rw [boolValue_eq_one, beq_iff_eq, bits_eq_zero_iff_position hs]

/-- Settles O47: the offsets found are the candidates with a start code, which the scan tries in rising order. -/
theorem scanFindsTheFirstStartCode : Obligations.ScanFindsTheFirstStartCode := by
  intro base size s found hfound
  have hcandidate (p : Nat) : found p ↔ p < size.toNat - 2 ∧ startCodeAt s.mem base p = true := by
    rw [hfound, startCodeAt_iff, show p + 3 ≤ size.toNat ↔ p < size.toNat - 2 by omega]
  refine ⟨fun p hp hleast => execScanForStartCodes_of_some ?_, fun hnone => execScanForStartCodes_of_none ?_⟩
  · obtain ⟨hlt, hcode⟩ := (hcandidate p).1 hp
    rw [scan_eq_find?, List.find?_range_eq_some]
    refine ⟨hcode, List.mem_range.2 hlt, fun q hq => ?_⟩
    rw [Bool.not_eq_true', ← Bool.not_eq_true]
    exact fun hcode' => hleast q hq ((hcandidate q).2 ⟨hq.trans hlt, hcode'⟩)
  · rw [scan_eq_find?, List.find?_range_eq_none]
    intro q hlt
    rw [Bool.not_eq_true', ← Bool.not_eq_true]
    exact fun hcode => hnone q ((hcandidate q).2 ⟨hlt, hcode⟩)

/-- Settles O43: the values of R94 written out. -/
theorem alignmentAndEpbQueries : Obligations.AlignmentAndEpbQueries := by
  intro s
  rw [← boolValue_bits_eq_zero, ← wordValue_eq_ofNat]
  exact ⟨rfl, rfl⟩

end Sys2Proof.Proofs.StreamUtils
end

section
/-!
Failures (spec/60_exceptions.md): a response that is not OK is all its command adds (R225), and what a command replies
does not depend on the responses before it, so that nothing of a failure is left over for the next command (R226).
-/

namespace Sys2Proof.Machine

/-! ### A response that is not OK -/

theorem acceptBeat_answer (beat : CommandBeat) (s : State) : Answer s (acceptBeat beat s) := by
  cases hdecode : decode beat with
  | error e =>
    rw [acceptBeat_error hdecode]
    exact .failed .illegal (by decide)
  | ok i =>
    rw [acceptBeat_ok hdecode]
    exact exec_answer i s

/-- R225: of the ways to answer only `fail` adds a response that is not OK. -/
theorem Answer.eq_fail {s t : State} {r : Response} (h : Answer s (.next t))
    (hresponses : t.responses = s.responses ++ [r]) (hne : r.status ≠ .ok) : t = s.fail r.status := by
  cases h with
  | failed st _ =>
    obtain rfl := List.singleton_injective (List.append_cancel_left hresponses)
    rfl
  | looked v | committed c v | started base size =>
    obtain rfl := List.singleton_injective (List.append_cancel_left hresponses)
    exact absurd rfl hne

theorem Status.ne_ok_of_isFailure {st : Status} (h : st.isFailure = true) : st ≠ .ok := by
  rintro rfl
  cases h

/-! ### The responses before a command -/

/-- The machine with other responses produced so far. -/
def State.withResponses (s : State) (log : List Response) : State := { s with responses := log }

@[simp] theorem State.withResponses_ctx (s : State) (log : List Response) : (s.withResponses log).ctx = s.ctx := rfl
@[simp] theorem State.withResponses_mem (s : State) (log : List Response) : (s.withResponses log).mem = s.mem := rfl

/-- While the host keeps R60 the responses so far do not change what the reader fetches. -/
theorem State.readerMem_withResponses {s : State} (h : s.rewritten = []) (log : List Response) :
    (s.withResponses log).readerMem = s.readerMem := by
  rw [State.readerMem_of_fixed h, State.readerMem_of_fixed (s := s.withResponses log) h, State.withResponses_mem]

/-- Two runs of a command, from `s` and with the responses `log` before it, leave the same state but for `log`: the
same registers, the same one response added. -/
inductive SameReply (s : State) (log : List Response) :
    Host.Outcome State Fault Refusal → Host.Outcome State Fault Refusal → Prop
  /-- both answer -/
  | next {t : State} (r : Response) (h : t.responses = s.responses ++ [r]) :
      SameReply s log (.next t) (.next (t.withResponses (log ++ [r])))

theorem SameReply.of_next {s t : State} {log : List Response} {o : Host.Outcome State Fault Refusal} {r : Response}
    (h : SameReply s log (.next t) o) (hresponses : t.responses = s.responses ++ [r]) :
    o = .next (t.withResponses (log ++ [r])) := by
  cases h with
  | next r' h =>
    obtain rfl := List.singleton_injective (List.append_cancel_left (h.symm.trans hresponses))
    rfl

section Commands

variable {s : State} {log : List Response}

theorem SameReply.respond (st : Status) (v : Value) :
    SameReply s log (.next (s.respond st v)) (.next ((s.withResponses log).respond st v)) := .next ⟨st, v⟩ rfl

theorem SameReply.commit (c : Context) (v : Value) :
    SameReply s log (.next (s.commit c v)) (.next ((s.withResponses log).commit c v)) := .next ⟨.ok, v⟩ rfl

section Fetching

variable (h : (s.withResponses log).readerMem = s.readerMem)
include h

theorem getBitsOp_sameReply (bound : Nat) (n : BitCount) :
    SameReply s log (getBitsOp bound n s) (getBitsOp bound n (s.withResponses log)) := by
  unfold getBitsOp
  rw [State.withResponses_ctx, h]
  repeat' split
  · exact .respond _ _
  · exact .commit _ _
  · exact .respond _ _

theorem peekBitsOp_sameReply (bound : Nat) (n : BitCount) :
    SameReply s log (peekBitsOp bound n s) (peekBitsOp bound n (s.withResponses log)) := by
  unfold peekBitsOp
  rw [State.withResponses_ctx, h]
  repeat' split
  all_goals exact .respond _ _

theorem execSkip_sameReply (n : BitCount) : SameReply s log (execSkip n s) (execSkip n (s.withResponses log)) := by
  unfold execSkip
  rw [State.withResponses_ctx, h]
  repeat' split
  · exact .respond _ _
  · exact .commit _ _
  · exact .respond _ _

theorem execGetUe_sameReply : SameReply s log (execGetUe s) (execGetUe (s.withResponses log)) := by
  unfold execGetUe
  rw [State.withResponses_ctx, h]
  split
  · exact .respond _ _
  · exact .commit _ _

theorem execGetSe_sameReply : SameReply s log (execGetSe s) (execGetSe (s.withResponses log)) := by
  unfold execGetSe
  rw [State.withResponses_ctx, h]
  split
  · exact .respond _ _
  · exact .commit _ _

theorem execHasMoreRbspData_sameReply :
    SameReply s log (execHasMoreRbspData s) (execHasMoreRbspData (s.withResponses log)) := by
  unfold execHasMoreRbspData
  rw [State.withResponses_ctx, h]
  exact .respond _ _

end Fetching

theorem execSkipToNextByte_sameReply :
    SameReply s log (execSkipToNextByte s) (execSkipToNextByte (s.withResponses log)) := by
  unfold execSkipToNextByte
  rw [State.withResponses_ctx]
  repeat' split
  · exact .commit _ _
  · exact .respond _ _
  · exact .commit _ _

theorem execScanForStartCodes_sameReply (base : Address) (size : Word) :
    SameReply s log (execScanForStartCodes base size s) (execScanForStartCodes base size (s.withResponses log)) := by
  unfold execScanForStartCodes
  rw [State.withResponses_mem]
  split <;> exact .respond _ _

theorem execCeilLog2_sameReply (v : Word) :
    SameReply s log (execCeilLog2 v s) (execCeilLog2 v (s.withResponses log)) := by
  unfold execCeilLog2
  split <;> exact .respond _ _

/-- R226: there is no handler state; a command reads the registers and the bytes, never the responses before it. -/
theorem exec_sameReply (h : (s.withResponses log).readerMem = s.readerMem) (i : Instr) :
    SameReply s log (exec i s) (exec i (s.withResponses log)) := by
  cases i with
  | init base size => exact .next ⟨.ok, 0#35⟩ rfl
  | skip n => exact execSkip_sameReply h n
  | skipToNextByte => exact execSkipToNextByte_sameReply
  | getBitsUint8 n => exact getBitsOp_sameReply h 8 n
  | getBitsUint16 n => exact getBitsOp_sameReply h 16 n
  | getBitsUint32 n => exact getBitsOp_sameReply h 32 n
  | peekBitsUint8 n => exact peekBitsOp_sameReply h 8 n
  | peekBitsUint16 n => exact peekBitsOp_sameReply h 16 n
  | peekBitsUint32 n => exact peekBitsOp_sameReply h 32 n
  | getUe => exact execGetUe_sameReply h
  | getSe => exact execGetSe_sameReply h
  | hasMoreRbspData => exact execHasMoreRbspData_sameReply h
  | isByteAligned | getPositionBits | getRemainingBits | getEpbCount => exact .respond _ _
  | scanForStartCodes base size => exact execScanForStartCodes_sameReply base size
  | ceilLog2 v => exact execCeilLog2_sameReply v

end Commands

end Sys2Proof.Machine
end

section
/-! The obligations of spec/60_exceptions.md: what a failure changes, and a failed command issued again. -/

namespace Sys2Proof.Proofs.Exceptions

open Sys2Proof.Machine

/-- Settles O11: the answer to the beat is a `fail` from the state with the beat taken. -/
theorem failureChangesNoRegister : Obligations.FailureChangesNoRegister := by
  intro s t beat rest r hport hstep hresponses hne
  have hanswer := acceptBeat_answer beat (s.withCommands rest)
  rw [← step_cons hport, hstep] at hanswer
  exact hanswer.eq_fail hresponses hne

/-- Settles O12: the failed command left its state but for the response, and the response is not seen. -/
theorem repeatedFailureFailsAgain : Obligations.RepeatedFailureFailsAgain := by
  intro i s t r hfixed hexec hresponses hfailure
  have hanswer := exec_answer i s
  have hsame := exec_sameReply (State.readerMem_withResponses hfixed t.responses) i
  rw [hexec] at hanswer hsame
  have hagain := hsame.of_next hresponses
  have hlog : t.responses ++ [r] = s.responses ++ [r, r] := by rw [hresponses, List.append_assoc, List.singleton_append]
  rw [hlog] at hagain
  obtain rfl := hanswer.eq_fail hresponses (Status.ne_ok_of_isFailure hfailure)
  exact hagain

end Sys2Proof.Proofs.Exceptions
end

section
/-!
A reader whose next push is exhausted with no valid bit left (spec/41_core.md R121, spec/44_stream_utils.md R197): no
read gets a single bit, and HAS_MORE_RBSP_DATA answers false with at most 8 bits left.
-/

namespace Sys2Proof.Machine

theorem getBits_of_pushNext_none {mem : Memory} {c : Context} {n : Nat} (hn : n ≤ 32) (h : c.bitsInCache.toNat < n)
    (hpush : pushNext mem c = none) : getBits mem c n = none :=
  getBits_none.2 (refill_of_pushNext_none hn h hpush)

section NoBit

variable {mem : Memory} {c : Context} (h : getBits mem c 1 = none)
include h

theorem ueDecode_of_no_bit : ueDecode mem c = .error .insufficientData := by
  have hcount : countZeros mem c = none := by rw [countZeros, countZerosLoop_succ, h]
  rw [ueDecode, hcount]

/-- R197: an exhausted first peek answers false, in every state with at most 8 bits left. -/
theorem hasMoreRbspData_of_no_bit (hfew : c.remainingBits ≤ 8) : hasMoreRbspData mem c = false := by
  unfold hasMoreRbspData
  simp only [if_neg (not_lt.2 hfew), h, ite_self]

end NoBit

theorem remainingBits_of_last_byte {c : Context} (haligned : c.bitsInCache.toNat = 0)
    (hlast : c.bytePos.toNat + 1 = c.size.toNat) : c.remainingBits = 8 := by
  unfold Context.remainingBits
  omega

end Sys2Proof.Machine
end

section
/-! The obligations of spec/70_reset_and_hazards.md: an emulation-prevention byte at the end of the buffer. -/

namespace Sys2Proof.Proofs.Hazards

open Sys2Proof.Machine

/-- Settles O34: the byte is dropped with none behind it, so no push succeeds and no read gets a bit;
SKIP_TO_NEXT_BYTE alone does not fetch it. -/
theorem trailingEpbIsNotConsumed : Obligations.TrailingEpbIsNotConsumed := by
  intro s haligned hlast hbyte hfirst hlow
  have hpush : pushNext s.readerMem s.ctx = none := pushNext_of_last_epb hlast (isEpb_iff.2 ⟨hbyte, hfirst, hlow⟩)
  have hbits := bits_eq_zero_iff.1 haligned
  have hread {n : Nat} (h1 : 1 ≤ n) (hn : n ≤ 32) : getBits s.readerMem s.ctx n = none :=
    getBits_of_pushNext_none hn (by omega) hpush
  have hdecode := ueDecode_of_no_bit (hread (le_refl 1) (by omega))
  have hremaining := remainingBits_of_last_byte hbits hlast
  refine ⟨?ue, ?reads, ?remaining, ?more, ?next⟩
  case ue =>
    simp only [List.forall_mem_cons, List.not_mem_nil, IsEmpty.forall_iff, implies_true, and_true]
    exact ⟨execGetUe_of_error hdecode, execGetSe_of_error hdecode⟩
  case reads =>
    intro p hp n h1 hn
    obtain ⟨hbound, hfail⟩ := exec_readForms_fail p hp
    exact (hfail n s).2 h1 hn (hread h1 (hn.trans hbound))
  case remaining =>
    change execGetRemainingBits s = _
    rw [execGetRemainingBits, hremaining]
    rfl
  case more =>
    exact exec_hasMoreRbspData (hasMoreRbspData_of_no_bit (hread (le_refl 1) (by omega)) hremaining.le)
  case next =>
    exact execSkipToNextByte_of_aligned haligned (by omega)

end Sys2Proof.Proofs.Hazards
end

section
/-! The command words printed in the examples of R110 to R198, read back with the opcode map of spec/30_encoding.md. -/

namespace Sys2Proof.Proofs.SpecWords

/-- Settles O4: each beat but the last is the encoding of its command (`opa` and `opb` zero where ignored); format V
does not read the last one's `opb`. -/
theorem specWordsDecode : Obligations.SpecWordsDecode := by
  refine ⟨?init, ?skip, ?get, ?peek, ?ue, ?aligned, ?scan, ?ceilLog2⟩
  case init => exact decode_encode (.init 0x1003#32 8#32)
  case skip => exact decode_encode (.skip 4#6)
  case get => exact decode_encode (.getBitsUint8 3#6)
  case peek => exact decode_encode (.peekBitsUint8 8#6)
  case ue => exact decode_encode .getUe
  case aligned => exact decode_encode .isByteAligned
  case scan => exact decode_encode (.scanForStartCodes 0x5000#32 6#32)
  case ceilLog2 => exact decode_of_zeroRow selectRow_ceilLog2

end Sys2Proof.Proofs.SpecWords
end
